-- ==== Sys2Proof/Word.lean ====
section
/-!
DEFINITION. The words of the machine: an 8-bit byte (a register, a memory cell, an operand byte,
10_state.md R10, 20_memory.md R40), the program counter's word (10_state.md R16), and the number of
an interrupt line (60_exceptions.md R200).
-/

namespace Sys2Proof

/-- `XLEN` = 8: a general register, a memory cell, an operand byte, the flags register (R5, R10, R20). -/
abbrev Byte := BitVec 8

/-- `PC_BITS` = 9: wide enough for the address one past the last cell of a 256-byte memory (R16). -/
abbrev PcWord := BitVec 9

/-- An interrupt line, 0 to 7 (R200). -/
abbrev Line := Fin 8

end Sys2Proof
end

