-- ==== Sys2Proof/Config.lean ====
section
/-!
DEFINITION. The implementation parameters of 00_scope.md R5 at the values this hardware takes.
`OPMAP` is the table of Sys2Proof/Decode.lean; `MEM_INIT` is the argument of `State.resetWith`;
`TIMER_LINE` and `TIMER_PERIOD` are open and not fixed: a raise is a host move on any line
(log entry 5).
-/

namespace Sys2Proof.Config

/-- `MEM_SIZE`: this hardware takes 256 (R5, R40). -/
def memSize : Nat := 256

/-- `SP_RESET`: the reset value of R7 (R5, R13). -/
def spReset : Byte := 0xF4

/-- `VEC_BASE`: the address of the vector of line 0 (R5, R46). -/
def vecBase : Nat := 0xF8

/-- `IE_RESET`: the reset value of the interrupt-enable flag (R5, R24). -/
def ieReset : Bool := true

/-- What a memory cell reads as when the memory list does not name it.
DESIGN CHOICE, unsafe: log entry 1. 70_reset_and_hazards.md R236 leaves the image to the host and
recommends 0x00 for the cells no program text covers. -/
def unlisted : Byte := 0x00

end Sys2Proof.Config
end

