-- ==== Sys2Proof/Syntax.lean ====
section
/-!
DEFINITION. The instructions of the LS-8 as syntax: one constructor for each of the 30 rows of
spec/opcode_table.json (30_encoding.md R66), and the general register names (10_state.md R10).
A register operand is a register by its type, so no term names a register that does not exist; the
reserved operand bytes of R69 are refused by the decoder.
-/

namespace Sys2Proof

/-- The eight general registers; R5 = IM, R6 = IS, R7 = SP (10_state.md R10, R12). -/
inductive Reg where
  | r0 | r1 | r2 | r3 | r4 | r5 | r6 | r7
deriving DecidableEq, Repr

/-- The 30 instructions, in the order of R66. `a` is operand A, `b` operand B, `imm` the immediate. -/
inductive Instr where
  | nop
  | hlt
  | ret
  | iret
  | pra (a : Reg)
  | prn (a : Reg)
  | int (a : Reg)
  | pop (a : Reg)
  | push (a : Reg)
  | not (a : Reg)
  | inc (a : Reg)
  | dec (a : Reg)
  | call (a : Reg)
  | jmp (a : Reg)
  | jeq (a : Reg)
  | jne (a : Reg)
  | jlt (a : Reg)
  | jgt (a : Reg)
  | cmp (a b : Reg)
  | add (a b : Reg)
  | sub (a b : Reg)
  | mul (a b : Reg)
  | div (a b : Reg)
  | mod (a b : Reg)
  | or (a b : Reg)
  | xor (a b : Reg)
  | and (a b : Reg)
  | ld (a b : Reg)
  | ldi (a : Reg) (imm : Byte)
  | st (a b : Reg)
deriving DecidableEq, Repr

/-- The number of operand bytes, 0, 1 or 2 (R66, column N). -/
def Instr.operandCount : Instr → Nat
  | .nop | .hlt | .ret | .iret => 0
  | .pra _ | .prn _ | .int _ | .pop _ | .push _ | .not _ | .inc _ | .dec _ | .call _ | .jmp _
  | .jeq _ | .jne _ | .jlt _ | .jgt _ => 1
  | .cmp _ _ | .add _ _ | .sub _ _ | .mul _ _ | .div _ _ | .mod _ _ | .or _ _ | .xor _ _
  | .and _ _ | .ld _ _ | .ldi _ _ | .st _ _ => 2

/-- The length in bytes: operand count + 1 (30_encoding.md R60, R64). -/
def Instr.length (i : Instr) : Nat := i.operandCount + 1

/-- The sets-PC flag `P`: exactly the eight instructions that can suppress the auto-advance
(30_encoding.md R61, R66 column P; 40_execution_cycle.md R87). -/
def Instr.setsPc : Instr → Bool
  | .ret | .iret | .call _ | .jmp _ | .jeq _ | .jne _ | .jlt _ | .jgt _ => true
  | .nop | .hlt | .pra _ | .prn _ | .int _ | .pop _ | .push _ | .not _ | .inc _ | .dec _
  | .cmp _ _ | .add _ _ | .sub _ _ | .mul _ _ | .div _ _ | .mod _ _ | .or _ _ | .xor _ _
  | .and _ _ | .ld _ _ | .ldi _ _ | .st _ _ => false

end Sys2Proof
end

