-- ==== Sys2Proof/WellFormed.lean ====
section
/-!
DEFINITION. What can still be ill formed about a term. An `Instr` names existing registers by its
type, so what is checked is its PLACE: an instruction stands well at an address when all its bytes lie
in memory (else its fetch raises OutOfBounds, 40_execution_cycle.md R82, R83; 20_memory.md R49); and a
memory image is well formed when it has one byte for each cell (70_reset_and_hazards.md R236).
-/

namespace Sys2Proof

/-- All bytes of `i`, the opcode at `addr`, lie in memory (R49, R60). -/
def Instr.fitsAt (i : Instr) (addr : Nat) : Bool := decide (addr + i.length ≤ Config.memSize)

/-- The image gives every one of the `MEM_SIZE` cells its byte (R236). -/
def imageWf (image : List Byte) : Bool := decide (image.length = Config.memSize)

end Sys2Proof
end

