-- ==== Sys2Proof/Decode.lean ====
section
/-!
DEFINITION. The encoding of 30_encoding.md: the fields of the opcode byte (R61), the register operand
byte (R62, R69), the opcode map `OPMAP` (R66), the decoder (total on any list of bytes, every refusal
named), the encoder, and the reading of a word numbered as spec/opcode_table.json numbers it.
-/

namespace Sys2Proof

/-- Field `N` of an opcode byte, bits 7:6: the operand count (R61, R64). -/
def operandCount (op : Byte) : Nat := (op >>> 6).toNat

/-- Field `P` of an opcode byte, bit 5: the sets-PC flag (R61). -/
def setsPcBit (op : Byte) : Bool := op.getLsbD 5

/-- The register a register operand byte names: bits 2:0, when bits 7:3 are 0; a byte above 7 names
none (R62, R69). -/
def Reg.ofByte (b : Byte) : Option Reg :=
  match b.toNat with
  | 0 => some .r0
  | 1 => some .r1
  | 2 => some .r2
  | 3 => some .r3
  | 4 => some .r4
  | 5 => some .r5
  | 6 => some .r6
  | 7 => some .r7
  | _ => none

/-- The operand byte that names a register (R62). -/
def Reg.toByte : Reg → Byte
  | .r0 => 0
  | .r1 => 1
  | .r2 => 2
  | .r3 => 3
  | .r4 => 4
  | .r5 => 5
  | .r6 => 6
  | .r7 => 7

/-- Why the decoder refuses. In the machine each of these is the fault UnknownInstruction, but for
`truncated`, which the fetch never produces (R67 to R69, 40_execution_cycle.md R84). -/
inductive DecodeError where
  /-- The list ends before the operand bytes that bits 7:6 of the opcode ask for. -/
  | truncated
  /-- Bits 7:6 of the opcode are 11, which no instruction has (R68). -/
  | countThree (op : Byte)
  /-- The opcode is not in the opcode map (R67). -/
  | unknownOpcode (op : Byte)
  /-- A register operand byte is above 7 (R69). -/
  | reservedOperand (op operand : Byte)
deriving DecidableEq, Repr

/-- The operand kinds of the opcode map's rows: none, `ra`, `ra, rb`, `ra, imm` (R62, R66). -/
inductive Shape where
  | none (i : Instr)
  | reg (f : Reg → Instr)
  | regReg (f : Reg → Reg → Instr)
  | regImm (f : Reg → Byte → Instr)

/-- The opcode map `OPMAP`, row by row as R66 lists it. -/
def opcodeMap : List (Byte × Shape) :=
  [(0x00, .none .nop), (0x01, .none .hlt), (0x29, .none .ret), (0x2B, .none .iret)] ++
  [(0x42, .reg .pra), (0x43, .reg .prn), (0x4A, .reg .int), (0x4C, .reg .pop), (0x4D, .reg .push),
   (0x50, .reg .not), (0x58, .reg .inc), (0x59, .reg .dec)] ++
  [(0x68, .reg .call), (0x70, .reg .jmp), (0x71, .reg .jeq), (0x72, .reg .jne), (0x73, .reg .jlt),
   (0x74, .reg .jgt)] ++
  [(0x80, .regReg .cmp), (0x88, .regReg .add), (0x89, .regReg .sub), (0x8A, .regReg .mul),
   (0x8B, .regReg .div), (0x8C, .regReg .mod), (0x91, .regReg .or), (0x92, .regReg .xor),
   (0x93, .regReg .and)] ++
  [(0x98, .regReg .ld), (0x99, .regImm .ldi), (0x9A, .regReg .st)]

/-- The row of a map for an opcode byte; all 8 bits are compared (R61). -/
def lookupShape (op : Byte) : List (Byte × Shape) → Option Shape
  | [] => .none
  | (k, sh) :: rows => if k = op then some sh else lookupShape op rows

/-- One register operand (R62, R69). -/
def regOperand (op operand : Byte) : Except DecodeError Reg :=
  match Reg.ofByte operand with
  | some r => .ok r
  | none => .error (.reservedOperand op operand)

/-- The instruction of a row of the map, its operands taken from the bytes after the opcode, with the
bytes left over (R60, R62). -/
def buildInstr (op : Byte) : Shape → List Byte → Except DecodeError (Instr × List Byte)
  | .none i, rest => .ok (i, rest)
  | .reg f, opA :: rest =>
    match regOperand op opA with
    | .ok a => .ok (f a, rest)
    | .error e => .error e
  | .regReg f, opA :: opB :: rest =>
    match regOperand op opA, regOperand op opB with
    | .ok a, .ok b => .ok (f a b, rest)
    | .error e, _ => .error e
    | .ok _, .error e => .error e
  | .regImm f, opA :: opB :: rest =>
    match regOperand op opA with
    | .ok a => .ok (f a opB, rest)
    | .error e => .error e
  | .reg _, [] => .error .truncated
  | .regReg _, [] => .error .truncated
  | .regReg _, [_] => .error .truncated
  | .regImm _, [] => .error .truncated
  | .regImm _, [_] => .error .truncated

/-- The decoder: the first instruction of a list of bytes and the bytes after it, or the reason there is
none. The order of the refusals is that of 40_execution_cycle.md R88: count 3, missing operand bytes,
unknown opcode, reserved operand. -/
def decode : List Byte → Except DecodeError (Instr × List Byte)
  | [] => .error .truncated
  | op :: rest =>
    if operandCount op = 3 then .error (.countThree op)
    else if rest.length < operandCount op then .error .truncated
    else
      match lookupShape op opcodeMap with
      | .none => .error (.unknownOpcode op)
      | some sh => buildInstr op sh rest

/-- The opcode byte of an instruction (R66, column hex). -/
def Instr.opcode : Instr → Byte
  | .nop => 0x00
  | .hlt => 0x01
  | .ret => 0x29
  | .iret => 0x2B
  | .pra _ => 0x42
  | .prn _ => 0x43
  | .int _ => 0x4A
  | .pop _ => 0x4C
  | .push _ => 0x4D
  | .not _ => 0x50
  | .inc _ => 0x58
  | .dec _ => 0x59
  | .call _ => 0x68
  | .jmp _ => 0x70
  | .jeq _ => 0x71
  | .jne _ => 0x72
  | .jlt _ => 0x73
  | .jgt _ => 0x74
  | .cmp _ _ => 0x80
  | .add _ _ => 0x88
  | .sub _ _ => 0x89
  | .mul _ _ => 0x8A
  | .div _ _ => 0x8B
  | .mod _ _ => 0x8C
  | .or _ _ => 0x91
  | .xor _ _ => 0x92
  | .and _ _ => 0x93
  | .ld _ _ => 0x98
  | .ldi _ _ => 0x99
  | .st _ _ => 0x9A

/-- The operand bytes of an instruction, operand A first (R60, R62). -/
def Instr.operandBytes : Instr → List Byte
  | .nop | .hlt | .ret | .iret => []
  | .pra a | .prn a | .int a | .pop a | .push a | .not a | .inc a | .dec a | .call a | .jmp a
  | .jeq a | .jne a | .jlt a | .jgt a => [a.toByte]
  | .cmp a b | .add a b | .sub a b | .mul a b | .div a b | .mod a b | .or a b | .xor a b
  | .and a b | .ld a b | .st a b => [a.toByte, b.toByte]
  | .ldi a imm => [a.toByte, imm]

/-- The encoder: the bytes of an instruction at ascending addresses (R60). -/
def encode (i : Instr) : List Byte := i.opcode :: i.operandBytes

/-- The lowest `n` bytes of the number `w`, the most significant first. -/
def bytesOfWord : Nat → Nat → List Byte
  | 0, _ => []
  | n + 1, w => BitVec.ofNat 8 (w / 256 ^ n) :: bytesOfWord n w

/-- The bytes of an instruction whose bits, numbered as spec/opcode_table.json numbers them, are `w`,
laid out at ascending addresses and filled with zero bytes up to the longest instruction's three.
The table reads the bytes "in address order" as one number with bit 0 the least significant bit of that
number (30_encoding.md R75, 98_reader.md), so the opcode byte is the most significant of the `nbits`
(log entry 4). -/
def tableWordBytes (nbits w : Nat) : List Byte :=
  let bytes := bytesOfWord ((nbits + 7) / 8) w
  bytes ++ List.replicate (3 - bytes.length) 0

/-- The instruction the decoder reads from a word numbered as spec/opcode_table.json numbers it. -/
def decodeTableWord (nbits w : Nat) : Option Instr :=
  match decode (tableWordBytes nbits w) with
  | .ok (i, _) => some i
  | .error _ => none

end Sys2Proof
end

