-- ==== Sys2Proof/Machine/State.lean ====
section
/-!
DEFINITION. The state of the LS-8: the tuple of 10_state.md R30 and nothing else, as plain data; the
reasons a phase can fault (60_exceptions.md R190); and the state after reset (10_state.md R29).
-/

namespace Sys2Proof.Machine

/-- The general register file (10_state.md R10). R5 = IM, R6 = IS, R7 = SP (R12, R13). -/
structure Regs where
  r0 : Byte
  r1 : Byte
  r2 : Byte
  r3 : Byte
  r4 : Byte
  r5 : Byte
  r6 : Byte
  r7 : Byte
deriving DecidableEq, Repr

/-- The memory: (address, byte) pairs, addresses strictly rising and below `MEM_SIZE`, no entry equal to
`Config.unlisted`, which is what every other cell reads as (20_memory.md R40; log entry 1). -/
abbrev Memory := List Host.Cell

/-- An output event (45_output.md R152). -/
inductive OutEvent where
  /-- A number event, of PRN (R150). -/
  | num (v : Byte)
  /-- A character event, of PRA: the code point (R151). -/
  | chr (v : Byte)
deriving DecidableEq, Repr

/-- The four faults and the context each records (60_exceptions.md R190). A fault is the content of
`RUN = Faulted` (R194): a phase that raises one ends in a next state that holds it, so no step and no
meaning answers the interface's own fault outcome with it (log entry 2). -/
inductive Fault where
  /-- Raised by the decode of an opcode byte that is not in the map, or of a register operand byte above
  7 (R191). Safe: the spec's own fault. -/
  | unknownInstruction (pc : PcWord) (op : Byte)
  /-- Raised by DIV and MOD when the register of operand B holds 0 (R192). Safe: the spec's own fault. -/
  | divideByZero (pc : PcWord) (op : Byte)
  /-- Raised by every memory access at an address >= `MEM_SIZE`; `pc` is that at the start of the phase,
  `addr` the full unwrapped address (R193). Safe: the spec's own fault. -/
  | outOfBounds (pc : PcWord) (addr : Nat)
  /-- Raised by JEQ, JNE, JGT, JLT when more than one of `FL[2:0]` is set (R196). Safe: the spec's own
  fault. -/
  | flagInvariant (pc : PcWord) (op fl : Byte)
deriving DecidableEq, Repr

/-- Why an instruction has no meaning in the model. -/
inductive Refusal where
  /-- Raised by exec's arm of an instruction that is not modelled yet; no arm does. Safe: it stops. -/
  | notModelled (mnemonic : String)
deriving DecidableEq, Repr

/-- The run state `RUN` (10_state.md R26). -/
inductive RunState where
  | running
  | halted
  | faulted (f : Fault)
deriving DecidableEq, Repr

/-- The complete architectural state (10_state.md R30). -/
structure State where
  /-- `x[0..7]` (R10). -/
  regs : Regs
  /-- The address of the next opcode byte (R16, R17). -/
  pc : PcWord
  /-- The flags: bit 0 Equal, bit 1 Greater, bit 2 Less, bits 7:3 storage only (R20, R22). -/
  fl : Byte
  /-- The interrupt-enable bit (R23, R24). -/
  ie : Bool
  /-- The memory (20_memory.md R40). -/
  mem : Memory
  /-- `RUN` (R26). -/
  run : RunState
  /-- `OUT`, oldest event first (R27). -/
  out : List OutEvent
deriving DecidableEq, Repr

/-- The machine right after reset (10_state.md R29), with the memory listing nothing: the host's image
is set by `State.resetWith`. -/
def State.reset : State where
  regs := { r0 := 0, r1 := 0, r2 := 0, r3 := 0, r4 := 0, r5 := 0, r6 := 0, r7 := Config.spReset }
  pc := 0
  fl := 0
  ie := Config.ieReset
  mem := []
  run := .running
  out := []

end Sys2Proof.Machine
end

