-- ==== Sys2Proof/Machine/Ops.lean ====
section
/-!
DEFINITION. The named operations every rule is written in: registers (10_state.md R11), memory
(20_memory.md R42, R43), the stack (42_stack.md R110, R111), the pc (10_state.md R18, 40_execution_cycle.md
R86), raising a fault (60_exceptions.md R194, R195), entering an interrupt (R206) and returning from one
(44_interrupt_instructions.md R141).
-/

namespace Sys2Proof.Machine

/-! ## Registers -/

/-- Read one register of the file. -/
def Regs.get (g : Regs) : Reg → Byte
  | .r0 => g.r0
  | .r1 => g.r1
  | .r2 => g.r2
  | .r3 => g.r3
  | .r4 => g.r4
  | .r5 => g.r5
  | .r6 => g.r6
  | .r7 => g.r7

/-- Write one register of the file. -/
def Regs.set (g : Regs) (r : Reg) (v : Byte) : Regs :=
  match r with
  | .r0 => { g with r0 := v }
  | .r1 => { g with r1 := v }
  | .r2 => { g with r2 := v }
  | .r3 => { g with r3 := v }
  | .r4 => { g with r4 := v }
  | .r5 => { g with r5 := v }
  | .r6 => { g with r6 := v }
  | .r7 => { g with r7 := v }

/-- `x[r]`: a read has no side effect (10_state.md R11). -/
def State.x (s : State) (r : Reg) : Byte := s.regs.get r

/-- `x[r] <- v` for a byte `v`. -/
def State.setX (s : State) (r : Reg) (v : Byte) : State := { s with regs := s.regs.set r v }

/-- `v mod 256`, the byte a register write stores for the integer `v`, negative included (R11). -/
def narrow (v : Int) : Byte := BitVec.ofInt 8 v

/-- `x[r] <- v` for an integer `v`: the register afterwards holds `v mod 256` (R11). -/
def State.writeX (s : State) (r : Reg) (v : Int) : State := s.setX r (narrow v)

/-! ## The other registers -/

/-- The next instruction in line: `pc <- pc + n` (40_execution_cycle.md R86). -/
def State.advance (s : State) (n : Nat) : State := { s with pc := s.pc + BitVec.ofNat 9 n }

/-- `pc <- zext(t)` (10_state.md R18). -/
def State.jumpTo (s : State) (t : Byte) : State := { s with pc := t.setWidth 9 }

/-- `FL <- v`, all 8 bits (10_state.md R21). -/
def State.setFl (s : State) (v : Byte) : State := { s with fl := v }

/-- `IE <- b` (10_state.md R24). -/
def State.setIe (s : State) (b : Bool) : State := { s with ie := b }

/-- `RUN <- r` (10_state.md R26). -/
def State.setRun (s : State) (r : RunState) : State := { s with run := r }

/-- Replace the memory. -/
def State.setMem (s : State) (m : Memory) : State := { s with mem := m }

/-- `emit e`: append one event to `OUT` (10_state.md R27, 45_output.md R152). -/
def State.emit (s : State) (e : OutEvent) : State := { s with out := s.out ++ [e] }

/-! ## Raising a fault -/

/-- Fault entry, `RUN <- Faulted(F, info)` and nothing else: no handler, no saved pc, no stack activity
(60_exceptions.md R194). -/
def State.takeFault (s : State) (f : Fault) : State := s.setRun (.faulted f)

/-- The end of a phase that began in `s`: it commits as a whole, or, if it raised a fault, every write it
made is discarded and only RUN changes (60_exceptions.md R195). -/
def endPhase (s : State) : Except Fault State → Host.Outcome State Fault Refusal
  | .ok t => .next t
  | .error f => .next (s.takeFault f)

/-! ## Memory -/

/-- The byte of cell `a`. -/
def Memory.get : Memory → Nat → Byte
  | [], _ => Config.unlisted
  | (k, v) :: m, a => if k = a then v else Memory.get m a

/-- Drop every entry of cell `a`. -/
def Memory.erase : Memory → Nat → Memory
  | [], _ => []
  | (k, v) :: m, a => if k = a then Memory.erase m a else (k, v) :: Memory.erase m a

/-- Put an entry before the first one with a greater address. -/
def Memory.place : Memory → Nat → Byte → Memory
  | [], a, b => [(a, b)]
  | (k, v) :: m, a, b => if a < k then (a, b) :: (k, v) :: m else (k, v) :: Memory.place m a b

/-- Cell `a` becomes `b` and no other cell changes; a cell that reads as unlisted is not listed. -/
def Memory.set (m : Memory) (a : Nat) (b : Byte) : Memory :=
  if b = Config.unlisted then Memory.erase m a else Memory.place (Memory.erase m a) a b

/-- The canonical form from address `lo` up: addresses strictly rising, inside memory, no entry equal to
the unlisted byte. -/
def Memory.wfFrom (lo : Nat) : Memory → Bool
  | [] => true
  | (k, v) :: m =>
    decide (lo ≤ k) && decide (k < Config.memSize) && decide (v ≠ Config.unlisted) &&
      Memory.wfFrom (k + 1) m

/-- The canonical form of a memory. -/
def Memory.wf (m : Memory) : Bool := Memory.wfFrom 0 m

/-- `MemRead(addr, 1)` (20_memory.md R42). The pc recorded with the fault is that at the start of the
phase: every phase reads and writes memory before it writes the pc (60_exceptions.md R190). -/
def memRead (s : State) (addr : Nat) : Except Fault Byte :=
  if Config.memSize ≤ addr then .error (.outOfBounds s.pc addr) else .ok (Memory.get s.mem addr)

/-- `MemWrite(addr, 1, v)` for a non-negative integer `v`: the cell becomes `v mod 256` (20_memory.md
R43); no protected range (R57). -/
def memWrite (s : State) (addr v : Nat) : Except Fault State :=
  if Config.memSize ≤ addr then .error (.outOfBounds s.pc addr)
  else .ok (s.setMem (Memory.set s.mem addr (BitVec.ofNat 8 v)))

/-- The bytes of a list into the cells from `addr` up; what lies beyond memory is dropped. The host's
load (70_reset_and_hazards.md R236), never an instruction's access. -/
def storeBytes (m : Memory) (addr : Nat) : List Byte → Memory
  | [] => m
  | b :: bs =>
    storeBytes (if addr < Config.memSize then Memory.set m addr b else m) (addr + 1) bs

/-! ## The stack -/

/-- `Push(v)` for a non-negative integer `v`: SP - 1 with wrap, then `v mod 256` at the new SP
(42_stack.md R110). -/
def push (s : State) (v : Nat) : Except Fault State :=
  let s1 := s.writeX .r7 ((s.x .r7).toNat - 1)
  memWrite s1 (s1.x .r7).toNat v

/-- `Pop()`: the byte at SP, then SP + 1 with wrap (42_stack.md R111). -/
def pop (s : State) : Except Fault (Byte × State) :=
  (memRead s (s.x .r7).toNat).bind fun v => .ok (v, s.writeX .r7 ((s.x .r7).toNat + 1))

/-- `Push` each value, first to last. -/
def pushAll (s : State) : List Nat → Except Fault State
  | [] => .ok s
  | v :: vs => (push s v).bind fun t => pushAll t vs

/-- `x[r] <- Pop()` for each register, first to last. -/
def popRegs (s : State) : List Reg → Except Fault State
  | [] => .ok s
  | r :: rs => (pop s).bind fun p => popRegs (p.2.setX r p.1) rs

/-! ## Interrupts -/

/-- The byte with bit `i` alone set. -/
def lineBit (i : Line) : Byte := 1#8 <<< i.val

/-- `pending = IS & IM` (60_exceptions.md R201). -/
def State.pending (s : State) : Byte := s.x .r6 &&& s.x .r5

/-- "Scan bit 0 upward": the lowest line whose bit is set (60_exceptions.md R205). -/
def lowestLine (p : Byte) : Option Line :=
  ([0, 1, 2, 3, 4, 5, 6, 7] : List Line).find? fun i => p.getLsbD i.val

/-- The dispatch of line `i`, the entry of an interrupt (60_exceptions.md R206): IE cleared, bit `i` of R6
cleared, pc, FL and R0 to R6 pushed in this order, then the pc loaded from the vector, which is read
after the pushes. -/
def enterInterrupt (s : State) (i : Line) : Except Fault State :=
  let s1 := (s.setIe false).setX .r6 (s.x .r6 &&& ~~~(lineBit i))
  (pushAll s1
    [s1.pc.toNat, s1.fl.toNat, (s1.x .r0).toNat, (s1.x .r1).toNat, (s1.x .r2).toNat, (s1.x .r3).toNat,
      (s1.x .r4).toNat, (s1.x .r5).toNat, (s1.x .r6).toNat]).bind fun s2 =>
  (memRead s2 (Config.vecBase + i.val)).bind fun h => .ok (s2.jumpTo h)

/-- The return from an interrupt (44_interrupt_instructions.md R141): R6 down to R0, FL and pc popped,
IE set. -/
def leaveInterrupt (s : State) : Except Fault State :=
  (popRegs s [.r6, .r5, .r4, .r3, .r2, .r1, .r0]).bind fun s1 =>
  (pop s1).bind fun f =>
  (pop (f.2.setFl f.1)).bind fun p => .ok ((p.2.jumpTo p.1).setIe true)

/-- The interrupt phase of a step (40_execution_cycle.md R81, 60_exceptions.md R201): with IE = 1 the
lowest pending unmasked line is dispatched; otherwise nothing happens. -/
def interruptPhase (s : State) : Except Fault State :=
  if s.ie then
    match lowestLine s.pending with
    | some i => enterInterrupt s i
    | none => .ok s
  else .ok s

end Sys2Proof.Machine
end

