-- ==== Sys2Proof/Machine/Flags.lean ====
section
/-!
DEFINITION. The flags register's bits (10_state.md R20), what CMP makes of them (46_alu.md R172), and the
check the conditional jumps make of them (43_control_transfer.md R127).
-/

namespace Sys2Proof.Machine

/-- `FL.E` = `FL[0]`. -/
def flE (fl : Byte) : Bool := fl.getLsbD 0

/-- `FL.G` = `FL[1]`. -/
def flG (fl : Byte) : Bool := fl.getLsbD 1

/-- `FL.L` = `FL[2]`. -/
def flL (fl : Byte) : Bool := fl.getLsbD 2

/-- `popcount(FL[2:0])`. -/
def flCount (fl : Byte) : Nat := (flE fl).toNat + (flG fl).toNat + (flL fl).toNat

/-- More than one of E, G, L is set (43_control_transfer.md R127). -/
def flagViolation (fl : Byte) : Bool := decide (1 < flCount fl)

/-- The one bit CMP sets: Equal, Greater (left above right) or Less, unsigned (46_alu.md R172). -/
def compareBit (x y : Byte) : Byte :=
  if x.toNat = y.toNat then 0b001 else if y.toNat < x.toNat then 0b010 else 0b100

/-- FL after CMP: bits 2:0 cleared, then exactly one set; bits 7:3 as they were (46_alu.md R172). -/
def cmpFlags (fl x y : Byte) : Byte := (fl &&& 0b11111000) ||| compareBit x y

end Sys2Proof.Machine
end

