-- ==== Sys2Proof/Machine/Operands.lean ====
section
/-!
DEFINITION. The operand forms and the values the ALU computes from them. A register operand is the value
of the register, an immediate the byte itself (30_encoding.md R62, R63); the only addressing mode is
register-indirect (41_load_store.md, 43_control_transfer.md R128). Every ALU value is the exact integer
result on the unsigned operand values, which the register write reduces modulo 256 (46_alu.md R160, R173).
-/

namespace Sys2Proof.Machine

/-- The address a register holds, 0 to 255, with no offset (41_load_store.md). -/
def regAddr (s : State) (r : Reg) : Nat := (s.x r).toNat

/-- ADD: the exact sum (R161). -/
def addValue (x y : Byte) : Int := (x.toNat : Int) + y.toNat

/-- SUB: the exact difference, operand A the minuend (R160, R162). -/
def subValue (x y : Byte) : Int := (x.toNat : Int) - y.toNat

/-- MUL: the exact product (R163). -/
def mulValue (x y : Byte) : Int := (x.toNat : Int) * y.toNat

/-- DIV: the floor of the exact quotient, operand B the divisor; not asked for a zero divisor
(R160, R164). -/
def divValue (x y : Byte) : Int := ((x.toNat / y.toNat : Nat) : Int)

/-- MOD: the remainder, operand B the divisor; not asked for a zero divisor (R160, R165). -/
def modValue (x y : Byte) : Int := ((x.toNat % y.toNat : Nat) : Int)

/-- AND (R166). -/
def andValue (x y : Byte) : Int := ((x.toNat &&& y.toNat : Nat) : Int)

/-- OR (R167). -/
def orValue (x y : Byte) : Int := ((x.toNat ||| y.toNat : Nat) : Int)

/-- XOR (R168). -/
def xorValue (x y : Byte) : Int := ((x.toNat ^^^ y.toNat : Nat) : Int)

/-- NOT: the complement of an unbounded integer, `-v - 1` (R169). -/
def notValue (x : Byte) : Int := -(x.toNat : Int) - 1

/-- INC (R170). -/
def incValue (x : Byte) : Int := (x.toNat : Int) + 1

/-- DEC (R171). -/
def decValue (x : Byte) : Int := (x.toNat : Int) - 1

/-- INT: the old IS with bit `line` set, on unbounded integers, so that a line of 8 or more has no bit
inside bits 7:0 (44_interrupt_instructions.md R140). -/
def raisedValue (is line : Byte) : Int := ((is.toNat ||| (1 <<< line.toNat) : Nat) : Int)

/-- The shared shape of the two-operand ALU instructions that write operand A:
`x[a] <- value; pc <- pc + 3` (R160). -/
def aluBinary (s : State) (a b : Reg) (value : Byte → Byte → Int) : State :=
  (s.writeX a (value (s.x a) (s.x b))).advance 3

/-- The shared shape of NOT, INC and DEC: `x[a] <- value; pc <- pc + 2`. -/
def aluUnary (s : State) (a : Reg) (value : Byte → Int) : State :=
  (s.writeX a (value (s.x a))).advance 2

/-- The shared shape of DIV and MOD: a zero divisor raises DivideByZero before anything is written
(R164, R165, 60_exceptions.md R192). -/
def aluDivide (s : State) (i : Instr) (a b : Reg) (value : Byte → Byte → Int) : Except Fault State :=
  if s.x b = 0 then .error (.divideByZero s.pc i.opcode) else .ok (aluBinary s a b value)

end Sys2Proof.Machine
end

