-- ==== Sys2Proof/Machine/Alu.lean ====
section
/-!
DEFINITION. The twelve ALU instructions (46_alu.md R160 to R174).
-/

namespace Sys2Proof.Machine

/-- NOT ra (R169). -/
def execNot (a : Reg) (s : State) : Host.Outcome State Fault Refusal :=
  endPhase s (.ok (aluUnary s a notValue))

/-- INC ra (R170). -/
def execInc (a : Reg) (s : State) : Host.Outcome State Fault Refusal :=
  endPhase s (.ok (aluUnary s a incValue))

/-- DEC ra (R171). -/
def execDec (a : Reg) (s : State) : Host.Outcome State Fault Refusal :=
  endPhase s (.ok (aluUnary s a decValue))

/-- CMP ra, rb: writes `FL[2:0]` and no general register (R172, R174). -/
def execCmp (a b : Reg) (s : State) : Host.Outcome State Fault Refusal :=
  endPhase s (.ok ((s.setFl (cmpFlags s.fl (s.x a) (s.x b))).advance 3))

/-- ADD ra, rb (R161). -/
def execAdd (a b : Reg) (s : State) : Host.Outcome State Fault Refusal :=
  endPhase s (.ok (aluBinary s a b addValue))

/-- SUB ra, rb (R162). -/
def execSub (a b : Reg) (s : State) : Host.Outcome State Fault Refusal :=
  endPhase s (.ok (aluBinary s a b subValue))

/-- MUL ra, rb (R163). -/
def execMul (a b : Reg) (s : State) : Host.Outcome State Fault Refusal :=
  endPhase s (.ok (aluBinary s a b mulValue))

/-- DIV ra, rb (R164). -/
def execDiv (a b : Reg) (s : State) : Host.Outcome State Fault Refusal :=
  endPhase s (aluDivide s (.div a b) a b divValue)

/-- MOD ra, rb (R165). -/
def execMod (a b : Reg) (s : State) : Host.Outcome State Fault Refusal :=
  endPhase s (aluDivide s (.mod a b) a b modValue)

/-- OR ra, rb (R167). -/
def execOr (a b : Reg) (s : State) : Host.Outcome State Fault Refusal :=
  endPhase s (.ok (aluBinary s a b orValue))

/-- XOR ra, rb (R168). -/
def execXor (a b : Reg) (s : State) : Host.Outcome State Fault Refusal :=
  endPhase s (.ok (aluBinary s a b xorValue))

/-- AND ra, rb (R166). -/
def execAnd (a b : Reg) (s : State) : Host.Outcome State Fault Refusal :=
  endPhase s (.ok (aluBinary s a b andValue))

end Sys2Proof.Machine
end

