-- ==== Sys2Proof/Machine/Basic.lean ====
section
/-!
DEFINITION. NOP and HLT (40_execution_cycle.md R91, R90).
-/

namespace Sys2Proof.Machine

/-- NOP: no effect but the advance (R91). -/
def execNop (s : State) : Host.Outcome State Fault Refusal := endPhase s (.ok (s.advance 1))

/-- HLT: `RUN <- Halted`, and the pc advances (R90). -/
def execHlt (s : State) : Host.Outcome State Fault Refusal :=
  endPhase s (.ok ((s.setRun .halted).advance 1))

end Sys2Proof.Machine
end

