-- ==== Sys2Proof/Machine/Interrupt.lean ====
section
/-!
DEFINITION. INT and IRET (44_interrupt_instructions.md R140, R141).
-/

namespace Sys2Proof.Machine

/-- INT ra: `x[6] <- x[6] | (1 << x[a])`; it falls through and does not itself dispatch (R140). -/
def execInt (a : Reg) (s : State) : Host.Outcome State Fault Refusal :=
  endPhase s (.ok ((s.writeX .r6 (raisedValue (s.x .r6) (s.x a))).advance 2))

/-- IRET: the return from an interrupt (R141). -/
def execIret (s : State) : Host.Outcome State Fault Refusal := endPhase s (leaveInterrupt s)

end Sys2Proof.Machine
end

