-- ==== Sys2Proof/Machine/LoadStore.lean ====
section
/-!
DEFINITION. LDI, LD and ST (41_load_store.md R100 to R102).
-/

namespace Sys2Proof.Machine

/-- LDI ra, imm (R100). -/
def execLdi (a : Reg) (imm : Byte) (s : State) : Host.Outcome State Fault Refusal :=
  endPhase s (.ok ((s.setX a imm).advance 3))

/-- LD ra, rb: `x[a] <- MemRead(x[b], 1)` (R101). -/
def execLd (a b : Reg) (s : State) : Host.Outcome State Fault Refusal :=
  endPhase s ((memRead s (regAddr s b)).bind fun v => .ok ((s.setX a v).advance 3))

/-- ST ra, rb: `MemWrite(x[a], 1, x[b])`, the address register first (R102). -/
def execSt (a b : Reg) (s : State) : Host.Outcome State Fault Refusal :=
  endPhase s ((memWrite s (regAddr s a) (s.x b).toNat).bind fun t => .ok (t.advance 3))

end Sys2Proof.Machine
end

