-- ==== Sys2Proof/Machine/Output.lean ====
section
/-!
DEFINITION. PRN and PRA (45_output.md R150, R151).
-/

namespace Sys2Proof.Machine

/-- PRN ra: `emit Num(x[a])` (R150). -/
def execPrn (a : Reg) (s : State) : Host.Outcome State Fault Refusal :=
  endPhase s (.ok ((s.emit (.num (s.x a))).advance 2))

/-- PRA ra: `emit Chr(x[a])` (R151). -/
def execPra (a : Reg) (s : State) : Host.Outcome State Fault Refusal :=
  endPhase s (.ok ((s.emit (.chr (s.x a))).advance 2))

end Sys2Proof.Machine
end

