-- ==== Sys2Proof/Machine/Stack.lean ====
section
/-!
DEFINITION. PUSH and POP (42_stack.md R112, R113).
-/

namespace Sys2Proof.Machine

/-- PUSH ra: SP - 1, then `x[a]`, read after the decrement, to the cell at SP (R112). -/
def execPush (a : Reg) (s : State) : Host.Outcome State Fault Refusal :=
  let s1 := s.writeX .r7 (decValue (s.x .r7))
  endPhase s ((memWrite s1 (regAddr s1 .r7) (s1.x a).toNat).bind fun t => .ok (t.advance 2))

/-- POP ra: `x[a]` from the cell at SP, then SP + 1, so that POP R7 increments the loaded value (R113). -/
def execPop (a : Reg) (s : State) : Host.Outcome State Fault Refusal :=
  endPhase s ((memRead s (regAddr s .r7)).bind fun v =>
    let s1 := s.setX a v
    .ok ((s1.writeX .r7 (incValue (s1.x .r7))).advance 2))

end Sys2Proof.Machine
end

