-- ==== Sys2Proof/Machine/Transfer.lean ====
section
/-!
DEFINITION. CALL, RET, JMP, JEQ, JNE, JGT and JLT (43_control_transfer.md R120 to R127).
-/

namespace Sys2Proof.Machine

/-- CALL ra: push `pc + 2`, then `pc <- zext(x[a])`, the target read after the push (R120). -/
def execCall (a : Reg) (s : State) : Host.Outcome State Fault Refusal :=
  endPhase s ((push s (s.pc.toNat + 2)).bind fun t => .ok (t.jumpTo (t.x a)))

/-- RET: `pc <- zext(Pop())` (R121). -/
def execRet (s : State) : Host.Outcome State Fault Refusal :=
  endPhase s ((pop s).bind fun p => .ok (p.2.jumpTo p.1))

/-- JMP ra (R122). -/
def execJmp (a : Reg) (s : State) : Host.Outcome State Fault Refusal :=
  endPhase s (.ok (s.jumpTo (s.x a)))

/-- The shared shape of the conditional jumps: more than one of E, G, L set is FlagInvariant (R127);
otherwise the jump is taken on its own condition, else the pc advances by 2. `i` is the instruction, for
the opcode byte the fault records. -/
def condJump (s : State) (i : Instr) (a : Reg) (taken : Bool) : Except Fault State :=
  if flagViolation s.fl then .error (.flagInvariant s.pc i.opcode s.fl)
  else if taken then .ok (s.jumpTo (s.x a)) else .ok (s.advance 2)

/-- JEQ ra: taken when Equal is set (R123). -/
def execJeq (a : Reg) (s : State) : Host.Outcome State Fault Refusal :=
  endPhase s (condJump s (.jeq a) a (flE s.fl))

/-- JNE ra: taken when Equal is clear (R124). -/
def execJne (a : Reg) (s : State) : Host.Outcome State Fault Refusal :=
  endPhase s (condJump s (.jne a) a (!flE s.fl))

/-- JGT ra: taken when Greater is set (R125). -/
def execJgt (a : Reg) (s : State) : Host.Outcome State Fault Refusal :=
  endPhase s (condJump s (.jgt a) a (flG s.fl))

/-- JLT ra: taken when Less is set (R126). -/
def execJlt (a : Reg) (s : State) : Host.Outcome State Fault Refusal :=
  endPhase s (condJump s (.jlt a) a (flL s.fl))

end Sys2Proof.Machine
end

