-- ==== Sys2Proof/Machine/Fetch.lean ====
section
/-!
DEFINITION. Fetch and decode of the instruction at the pc (40_execution_cycle.md R82 to R84, R88).
-/

namespace Sys2Proof.Machine

/-- `n` bytes from `addr` up, each by its own `MemRead`, in ascending order. -/
def readBytes (s : State) (addr : Nat) : Nat → Except Fault (List Byte)
  | 0 => .ok []
  | n + 1 =>
    (memRead s addr).bind fun b => (readBytes s (addr + 1) n).bind fun bs => .ok (b :: bs)

/-- Fetch and decode (R82 to R84), the checks in the order of R88: opcode fetch, count 3, operand A,
operand B, opcode not in the map, reserved register operand. Addresses are computed without wrap. -/
def fetch (s : State) : Except Fault Instr :=
  (memRead s s.pc.toNat).bind fun op =>
    if operandCount op = 3 then .error (.unknownInstruction s.pc op)
    else
      (readBytes s (s.pc.toNat + 1) (operandCount op)).bind fun operands =>
        match decode (op :: operands) with
        | .ok (i, _) => .ok i
        | .error _ => .error (.unknownInstruction s.pc op)

end Sys2Proof.Machine
end

