-- ==== Sys2Proof/Machine/Cycle.lean ====
section
/-!
DEFINITION. The step put together (40_execution_cycle.md R80, R89, R92), and the placing of an
instruction where the next step fetches.
-/

namespace Sys2Proof.Machine

/-- The instruction phase: fetch, decode, execute, advance, at the pc of `s` (R82 to R86). A fault of the
fetch or decode leaves no trace but RUN (60_exceptions.md R195); a fault of the execution is taken by the
instruction's own meaning. -/
def instructionPhase (s : State) : Host.Outcome State Fault Refusal :=
  match fetch s with
  | .ok i => exec i s
  | .error f => endPhase s (.error f)

/-- One step trigger (70_reset_and_hazards.md R250): in `Running`, the interrupt phase and, in the same
step, the instruction phase at the pc it left (R80, R92; 90_conflicts.md C1); a fault of the interrupt
phase ends the step (60_exceptions.md R214). In `Halted` and `Faulted` no step happens and the trigger is
ignored: nothing changes (R89, R250; log entry 2). -/
def trigger (s : State) : Host.Outcome State Fault Refusal :=
  match s.run with
  | .running =>
    match interruptPhase s with
    | .ok t => instructionPhase t
    | .error f => endPhase s (.error f)
  | .halted => .next s
  | .faulted _ => .next s

/-- The word of spec/opcode_table.json `w` of `nbits` bits, laid out as bytes at the pc, with what it
takes that the very next step fetches there: the run state Running, and, if a line is pending, unmasked
and enabled, IE cleared, so that the step does not dispatch first (log entry 3). -/
def placeFetchWord (s : State) (nbits w : Nat) : State :=
  { s with
    run := .running
    ie := s.ie && decide (s.pending = 0)
    mem := storeBytes s.mem s.pc.toNat (tableWordBytes nbits w) }

end Sys2Proof.Machine
end

