-- ==== Sys2Proof/Machine/Step.lean ====
section
/-!
DEFINITION. The machine's step and the host's placing of an instruction, each a call of the definition in
Machine/Cycle.lean.
-/

namespace Sys2Proof.Machine

/-- One step trigger of the core (40_execution_cycle.md R80, 70_reset_and_hazards.md R250). -/
def step (s : State) : Host.Outcome State Fault Refusal := trigger s

/-- `s` with an instruction of the opcode table stored where the next step fetches. -/
def State.withFetchWord (s : State) (nbits w : Nat) : State := placeFetchWord s nbits w

end Sys2Proof.Machine
end

