-- ==== Sys2Proof/Machine/HostPort.lean ====
section
/-!
DEFINITION. The core's interface to the host: reset with an image (70_reset_and_hazards.md R230, R236), the
external raise of an interrupt line (60_exceptions.md R203), and the host's moves (R251) in any order
(log entry 5).
-/

namespace Sys2Proof.Machine

/-- Reset: every piece of state at its reset value and every memory cell at the image's byte
(70_reset_and_hazards.md R230, R236; 10_state.md R29). Cells the image does not reach hold
`Config.unlisted`, and bytes beyond memory are dropped. -/
def State.resetWith (image : List Byte) : State := State.reset.setMem (storeBytes [] 0 image)

/-- The external raise of line `i`, between two steps: `x[6] <- x[6] | (1 << i)` while Running, nothing in
`Halted` and `Faulted` (60_exceptions.md R203). -/
def State.raiseLine (s : State) (i : Line) : State :=
  match s.run with
  | .running => s.setX .r6 (s.x .r6 ||| lineBit i)
  | .halted => s
  | .faulted _ => s

/-- What the host can do to the core (70_reset_and_hazards.md R251); reading the output, the status,
registers and memory changes nothing (R253), and a host that stops the clock makes no move (R252). -/
inductive HostMove where
  /-- Reset and load the image (R230, R236). -/
  | reset (image : List Byte)
  /-- Request one step (R250). -/
  | trigger
  /-- Raise an interrupt line (R203). -/
  | raiseLine (i : Line)
deriving DecidableEq, Repr

/-- The effect of a host move; each happens at a step boundary (20_memory.md R51). -/
def hostMove (m : HostMove) (s : State) : Host.Outcome State Fault Refusal :=
  match m with
  | .reset image => .next (State.resetWith image)
  | .trigger => step s
  | .raiseLine i => .next (s.raiseLine i)

end Sys2Proof.Machine
end

