-- ==== Sys2Proof/Safety.lean ====
section
/-!
DEFINITION. The terms claims are stated in: the invariant of the machine, a state without a fault, the
states the host can bring about, what one state leaves unchanged of another, and the spec's own tables of
what each instruction writes.
-/

namespace Sys2Proof.Machine

/-! ## Runs -/

/-- The pc a fault records: that of the opcode byte, or that at the start of the phase
(60_exceptions.md R190). -/
def Fault.pcOf : Fault → PcWord
  | .unknownInstruction pc _ => pc
  | .divideByZero pc _ => pc
  | .outOfBounds pc _ => pc
  | .flagInvariant pc _ _ => pc

/-- The invariant: the memory is in its canonical form; `pc <= max(MEM_SIZE, 255)`, that is at most 256
(10_state.md R19); and a faulted machine's pc is still the one its fault records (60_exceptions.md R191,
R192, R195). -/
def State.Inv (s : State) : Prop :=
  Memory.wf s.mem = true ∧ s.pc.toNat ≤ 256 ∧ ∀ f, s.run = .faulted f → f.pcOf = s.pc

/-- The run has not ended in a fault (60_exceptions.md R194). -/
def State.NoFault (s : State) : Prop := ∀ f, s.run ≠ .faulted f

/-- The states that reset and the host's moves lead to (70_reset_and_hazards.md R251). -/
inductive Reachable : State → Prop where
  | start : Reachable State.reset
  | move (s t : State) (m : HostMove) : Reachable s → hostMove m s = .next t → Reachable t

/-! ## Interrupts -/

/-- No interrupt is taken at the start of a step in `s`: IE is 0, or `IS & IM` is 0
(60_exceptions.md R201). -/
def State.Quiet (s : State) : Prop := s.ie = false ∨ s.x .r6 &&& s.x .r5 = 0

/-- Line `i` is taken at the start of a step in `s`: IE is 1, the line is pending and unmasked, and no
lower line is (60_exceptions.md R201, R205). -/
def State.TakesLine (s : State) (i : Line) : Prop :=
  s.ie = true ∧ (s.x .r6 &&& s.x .r5).getLsbD i.val = true ∧
    ∀ j : Line, j < i → (s.x .r6 &&& s.x .r5).getLsbD j.val = false

/-- The address `S - k` of a frame, `S` the stack pointer in `s`, modulo 256 (60_exceptions.md R207). -/
def frameAddr (s : State) (k : Nat) : Nat := (s.x .r7 - BitVec.ofNat 8 k).toNat

/-! ## What stays unchanged -/

/-- Every register but those of `rs` reads as before. -/
def SameRegsBut (rs : List Reg) (s t : State) : Prop := ∀ r, r ∉ rs → t.x r = s.x r

/-- Every byte of memory reads as before. -/
def SameMemory (s t : State) : Prop := ∀ k, Memory.get t.mem k = Memory.get s.mem k

/-- Every byte of memory outside the addresses of `as` reads as before. -/
def SameMemoryBut (as : List Nat) (s t : State) : Prop :=
  ∀ k, k ∉ as → Memory.get t.mem k = Memory.get s.mem k

/-- IE, RUN and OUT are as before. -/
def SameControl (s t : State) : Prop := t.ie = s.ie ∧ t.run = s.run ∧ t.out = s.out

/-- The frame of an instruction that writes only the registers of `rs` and the pc: every other register,
FL, IE, RUN, OUT and every byte of memory are as before. -/
def FrameBut (rs : List Reg) (s t : State) : Prop :=
  SameRegsBut rs s t ∧ t.fl = s.fl ∧ SameControl s t ∧ SameMemory s t

/-- The frame of an instruction that writes only the registers of `rs`, the cells of `as` and the pc. -/
def StoreFrameBut (rs : List Reg) (as : List Nat) (s t : State) : Prop :=
  SameRegsBut rs s t ∧ t.fl = s.fl ∧ SameControl s t ∧ SameMemoryBut as s t

/-- The bytes of `bs` stand in memory from `addr` up. -/
def BytesAt (s : State) (addr : Nat) (bs : List Byte) : Prop :=
  ∀ k (h : k < bs.length), Memory.get s.mem (addr + k) = bs[k]

/-! ## The spec's tables -/

/-- How many of `FL[2:0]` are set (43_control_transfer.md R127). -/
def lowFlagCount (fl : Byte) : Nat := (List.filter (fun k => fl.getLsbD k) [0, 1, 2]).length

/-- The general registers an instruction writes (10_state.md R14, column writes). -/
def writtenRegs : Instr → List Reg
  | .ldi a _ | .ld a _ => [a]
  | .push _ | .call _ | .ret => [.r7]
  | .pop a => [a, .r7]
  | .int _ => [.r6]
  | .iret => [.r0, .r1, .r2, .r3, .r4, .r5, .r6, .r7]
  | .add a _ | .sub a _ | .mul a _ | .div a _ | .mod a _ | .and a _ | .or a _ | .xor a _ => [a]
  | .not a | .inc a | .dec a => [a]
  | .st _ _ | .jmp _ | .jeq _ | .jne _ | .jgt _ | .jlt _ | .prn _ | .pra _ | .cmp _ _ | .hlt
  | .nop => []

/-- The memory cells an instruction writes in state `s` (20_memory.md R41, rows of kind write): ST the
cell `x[a]`, PUSH and CALL the cell `x[7]` after the decrement, no other instruction any. -/
def writtenCells (i : Instr) (s : State) : List Nat :=
  match i with
  | .st a _ => [(s.x a).toNat]
  | .push _ | .call _ => [frameAddr s 1]
  | .ldi _ _ | .ld _ _ | .pop _ | .ret | .int _ | .iret | .jmp _ | .jeq _ | .jne _ | .jgt _ | .jlt _
  | .prn _ | .pra _ | .add _ _ | .sub _ _ | .mul _ _ | .div _ _ | .mod _ _ | .and _ _ | .or _ _
  | .xor _ _ | .not _ | .inc _ | .dec _ | .cmp _ _ | .hlt | .nop => []

end Sys2Proof.Machine
end

