-- ==== Sys2Proof/Certificates/Slice0/Obligations.lean ====
section
/-!
DEFINITION. The statements for the provers, from the numbered rules of spec/. Where a rule rests on one of
the spec's own decisions D<n> (spec/92_eei_decisions.md), the docstring names it: the decision is the
spec's, and the rule that states it is the one followed. A statement that formalises a rule the spec marks
as derived has basis 'derived'.
-/

open Sys2Proof Sys2Proof.Machine

/-! ## Encoding -/

/-- R65, R67 to R69 on a few words: CA1's three opcodes, one word of each other family written out from
R66, and one refusal of each kind. R66's other 27 opcode values are the spec's decision D1. -/
def Obligations.SpecWordsDecode : Prop :=
  decode [0x99, 0x00, 0x08] = .ok (.ldi .r0 8, []) ∧ decode [0x43, 0x00] = .ok (.prn .r0, []) ∧
  decode [0x01] = .ok (.hlt, []) ∧ decode [0x4D, 0x07] = .ok (.push .r7, []) ∧
  decode [0x70, 0x02] = .ok (.jmp .r2, []) ∧ decode [0x2B] = .ok (.iret, []) ∧
  decode [0x8B, 0x03, 0x05] = .ok (.div .r3 .r5, []) ∧
  decode [0x02] = .error (.unknownOpcode 0x02) ∧ decode [0xC0] = .error (.countThree 0xC0) ∧
  decode [0x43, 0x08] = .error (.reservedOperand 0x43 0x08)

/-- Decode and encode agree, for every instruction and every operand: the decoder reads an encoded
instruction back and leaves the bytes after it alone (R60, R62, R66; D1 for the opcode values). -/
def Obligations.DecodeEncodeRoundTrip : Prop :=
  ∀ (i : Instr) (rest : List Byte), decode (encode i ++ rest) = .ok (i, rest)

/-- The other direction: every sequence of bytes the decoder accepts is the one encoding of the
instruction it answers, so no two spellings mean one instruction (R61, R69, R70; D4). -/
def Obligations.DecodedBytesAreTheEncoding : Prop :=
  ∀ (bytes rest : List Byte) (i : Instr), decode bytes = .ok (i, rest) → bytes = encode i ++ rest

/-- A word numbered as spec/opcode_table.json numbers it (its bytes in address order read as one number,
R75) is read as the instruction whose encoding those bytes are. -/
def Obligations.TableWordsDecode : Prop :=
  ∀ i : Instr,
    decodeTableWord (8 * i.length) ((encode i).foldl (fun n b => 256 * n + b.toNat) 0) = some i

/-! ## Reset and the host -/

/-- R29: reset with an image of `MEM_SIZE` bytes leaves every piece of state at the table's value, and
`State.reset` has the same registers. The values but SP's and RUN's are the spec's decisions D9 to D13. -/
def Obligations.ResetLeavesTheStatedValues : Prop :=
  ∀ image : List Byte, imageWf image = true →
    (∀ s, s = State.resetWith image ∨ s = State.reset →
      s.x .r7 = 0xF4 ∧ s.run = .running ∧ s.pc = 0 ∧ (∀ r, r ≠ .r7 → s.x r = 0) ∧ s.fl = 0 ∧
        s.ie = true ∧ s.out = []) ∧
    ∀ k (h : k < image.length), k < 256 ∧ memRead (State.resetWith image) k = .ok image[k]

/-- R203: a raise of line `i` while Running sets bit `i` of R6 and does nothing else; in Halted and
Faulted it does nothing (D18, D25). -/
def Obligations.RaiseSetsOnePendingBit : Prop :=
  ∀ (s : State) (i : Line),
    (s.run = .running →
      (∀ k < 8, ((s.raiseLine i).x .r6).getLsbD k = (decide (k = i.val) || (s.x .r6).getLsbD k)) ∧
      FrameBut [.r6] s (s.raiseLine i) ∧ (s.raiseLine i).pc = s.pc) ∧
    (s.run ≠ .running → s.raiseLine i = s)

/-- R89: in Halted and in Faulted a step trigger performs no step: nothing changes. That the trigger is
answered with the unchanged state, and not with a stop, is log entry 2. -/
def Obligations.TerminalStatesAreFrozen : Prop :=
  ∀ s : State, s.run ≠ .running → step s = .next s

/-- The host's placing of a table word: wherever the instruction fits at the pc, the very next step runs
exactly it (log entries 3 and 4). -/
def Obligations.PlacedWordIsTheNextInstruction : Prop :=
  ∀ (s : State) (nbits w : Nat) (i : Instr), decodeTableWord nbits w = some i →
    i.fitsAt s.pc.toNat = true → step (s.withFetchWord nbits w) = exec i (s.withFetchWord nbits w)

/-! ## The step -/

/-- R80 to R86: where no interrupt is taken and the bytes at the pc decode to `i`, the step is exec of `i`
at that very state: nothing is done around exec. -/
def Obligations.StepRunsDecodedInstruction : Prop :=
  ∀ (s : State) (i : Instr) (bytes : List Byte), s.run = .running → s.Quiet →
    BytesAt s s.pc.toNat bytes → s.pc.toNat + bytes.length ≤ 256 → decode bytes = .ok (i, []) →
    step s = exec i s

/-- R208, R80: a step that dispatches goes on, in the same step, to execute the instruction at the pc the
dispatch left. -/
def Obligations.DispatchingStepRunsHandlerInstruction : Prop :=
  ∀ (s t : State) (i : Line) (j : Instr) (bytes : List Byte), s.run = .running → s.TakesLine i →
    interruptPhase s = .ok t → BytesAt t t.pc.toNat bytes → t.pc.toNat + bytes.length ≤ 256 →
    decode bytes = .ok (j, []) → step s = exec j t

/-- Every state has a next state: a step trigger is never answered by a stop of the model. Derived from
R89, R92 and R194, with log entry 2 for the terminal states. -/
def Obligations.EveryStepAnswersNext : Prop := ∀ s : State, ∃ t, step s = .next t

/-- R67, R68: a running machine that fetches an unknown opcode byte faults with UnknownInstruction,
recording the pc and the byte, and changes nothing else. Every byte with count 3 is unknown and its fault
comes with no operand fetched (D5); for any other byte of no instruction the operand bytes must lie in
memory, since they are fetched first (R88, D6). -/
def Obligations.UnknownOpcodeFaults : Prop :=
  ∀ (s : State) (op : Byte), s.run = .running → s.Quiet → s.pc.toNat < 256 →
    Memory.get s.mem s.pc.toNat = op →
    (operandCount op = 3 ∨
      ((∀ i : Instr, i.opcode ≠ op) ∧ s.pc.toNat + operandCount op < 256)) →
    step s = .next { s with run := .faulted (.unknownInstruction s.pc op) }

/-- R69, R84: an opcode of the map with a register operand byte above 7 faults with UnknownInstruction and
changes nothing else; operand B of LDI (0x99) is no register operand (D4). -/
def Obligations.ReservedOperandFaults : Prop :=
  ∀ (s : State) (i : Instr) (opA opB : Byte), s.run = .running → s.Quiet →
    i.fitsAt s.pc.toNat = true → Memory.get s.mem s.pc.toNat = i.opcode →
    Memory.get s.mem (s.pc.toNat + 1) = opA → Memory.get s.mem (s.pc.toNat + 2) = opB →
    ((1 ≤ i.operandCount ∧ 7 < opA.toNat) ∨
      (i.operandCount = 2 ∧ i.opcode ≠ 0x99 ∧ 7 < opB.toNat)) →
    step s = .next { s with run := .faulted (.unknownInstruction s.pc i.opcode) }

/-- R82, R83: a fetch beyond memory faults with OutOfBounds, recording the pc and the address: the pc
itself when it is 256 or more, else the first operand address that is not below 256 (D6: before the opcode
is looked up). -/
def Obligations.FetchBeyondMemoryFaults : Prop :=
  ∀ s : State, s.run = .running → s.Quiet →
    (256 ≤ s.pc.toNat →
      step s = .next { s with run := .faulted (.outOfBounds s.pc s.pc.toNat) }) ∧
    (∀ n, n ≤ 2 → operandCount (Memory.get s.mem s.pc.toNat) = n → s.pc.toNat < 256 →
      256 ≤ s.pc.toNat + n →
      step s = .next { s with run := .faulted (.outOfBounds s.pc 256) })

/-- R195, R194: a step that ends in a fault is one whose instruction phase left no trace but RUN: every
other piece of state is what the interrupt phase left, and the fault records the pc of that state. With
256 cells the interrupt phase itself cannot fault (D7, D19). -/
def Obligations.FaultsArePrecise : Prop :=
  ∀ (s t : State) (f : Fault), s.run = .running → step s = .next t → t.run = .faulted f →
    ∃ u, interruptPhase s = .ok u ∧ t = { u with run := .faulted f } ∧ f.pcOf = u.pc

/-- What executing an instruction can do to RUN: HLT halts; DIV and MOD fault on a zero divisor; the
conditional jumps fault on a flag violation; the fault is then the whole effect; no other instruction
changes RUN (R26, R190, R192, R196, with R49 for the memory accesses). -/
def Obligations.RunChangesOnlyBy : Prop :=
  ∀ (i : Instr) (s t : State), exec i s = .next t → t.run ≠ s.run →
    (i = .hlt ∧ t.run = .halted) ∨
    (t = { s with run := .faulted (.divideByZero s.pc i.opcode) } ∧
      ∃ a b, (i = .div a b ∨ i = .mod a b) ∧ s.x b = 0) ∨
    (t = { s with run := .faulted (.flagInvariant s.pc i.opcode s.fl) } ∧ 1 < lowFlagCount s.fl ∧
      ∃ a, i = .jeq a ∨ i = .jne a ∨ i = .jgt a ∨ i = .jlt a)

/-! ## Invariants -/

/-- The invariant holds after reset, with no image and with any. -/
def Obligations.InvariantAtReset : Prop :=
  State.reset.Inv ∧ ∀ image : List Byte, (State.resetWith image).Inv

/-- Every step keeps the invariant: the memory stays in its canonical form, the pc stays at most 256
(R19), and a faulted machine's pc is the one its fault records. -/
def Obligations.StepKeepsInvariant : Prop := ∀ s t : State, s.Inv → step s = .next t → t.Inv

/-- Whatever the host does, in any order and for any images, the invariant holds. -/
def Obligations.ReachableStatesKeepInvariant : Prop := ∀ s : State, Reachable s → s.Inv

/-! ## Whole-machine rules -/

/-- R21: no instruction but CMP and IRET writes FL, and CMP leaves bits 7:3 alone; the dispatch reads it
only. -/
def Obligations.FlagsWrittenOnlyByCmpAndIret : Prop :=
  (∀ (i : Instr) (s t : State), exec i s = .next t → i ≠ .iret →
    ((∀ a b, i ≠ .cmp a b) → t.fl = s.fl) ∧ t.fl &&& 0xF8 = s.fl &&& 0xF8) ∧
  ∀ s t : State, interruptPhase s = .ok t → t.fl = s.fl

/-- R24: IE is written in exactly two places, the dispatch (0) and IRET (1), and resets to 1 (D12). -/
def Obligations.InterruptEnableWrittenOnlyTwice : Prop :=
  (∀ (i : Instr) (s t : State), exec i s = .next t → (i = .iret → t.ie = true) ∧
    (i ≠ .iret → t.ie = s.ie)) ∧
  (∀ (s t : State) (i : Line), interruptPhase s = .ok t → (s.TakesLine i → t.ie = false) ∧
    (s.Quiet → t = s)) ∧
  (∀ (s : State) (i : Line), (s.raiseLine i).ie = s.ie) ∧ State.reset.ie = true

/-- The table of R14: an instruction changes no general register but those its row lists as written. -/
def Obligations.RegistersWrittenAsTheTableSays : Prop :=
  ∀ (i : Instr) (s t : State), exec i s = .next t → SameRegsBut (writtenRegs i) s t

/-- The table of R41: an instruction changes no byte of memory but the one ST, PUSH or CALL stores to. -/
def Obligations.MemoryWrittenAsTheTableSays : Prop :=
  ∀ (i : Instr) (s t : State), exec i s = .next t → SameMemoryBut (writtenCells i s) s t

/-- The output only grows, by at most one event a step, and only PRN and PRA make an event
(R27, R152). -/
def Obligations.OutputIsAppendOnly : Prop :=
  (∀ s t : State, step s = .next t → t.out = s.out ∨ ∃ e, t.out = s.out ++ [e]) ∧
  ∀ (i : Instr) (s t : State), exec i s = .next t → (∀ a, i ≠ .prn a ∧ i ≠ .pra a) → t.out = s.out

/-- The auto-advance: an instruction whose sets-PC flag is 0 either faults or leaves the pc `length` bytes
further; from a pc its bytes lie at, the addition does not wrap (R17, R86, R87). -/
def Obligations.AutoAdvanceByLength : Prop :=
  ∀ (i : Instr) (s t : State), exec i s = .next t → i.setsPc = false →
    (∃ f, t = { s with run := .faulted f }) ∨
    (t.pc = s.pc + BitVec.ofNat 9 i.length ∧
      (i.fitsAt s.pc.toNat = true → t.pc.toNat = s.pc.toNat + i.length))

/-! ## The primitives -/

/-- R42, R43: what `MemRead` and `MemWrite` do, at every address, for every number written (D17 and D19
touch neither). -/
def Obligations.MemoryPrimitives : Prop :=
  ∀ (s : State) (addr v : Nat),
    (256 ≤ addr → memRead s addr = .error (.outOfBounds s.pc addr) ∧
      memWrite s addr v = .error (.outOfBounds s.pc addr)) ∧
    (addr < 256 → memRead s addr = .ok (Memory.get s.mem addr) ∧
      ∃ t, memWrite s addr v = .ok t ∧ memRead t addr = .ok (BitVec.ofNat 8 (v % 256)) ∧
        (∀ k, k ≠ addr → Memory.get t.mem k = Memory.get s.mem k) ∧ t = { s with mem := t.mem })

/-- R11: after `x[r] <- v` the register holds `v mod 256`, for every integer `v`, negative included, and
nothing else has changed. -/
def Obligations.RegisterWriteWraps : Prop :=
  ∀ (s : State) (r : Reg) (v : Int), (((s.writeX r v).x r).toNat : Int) = v % 256 ∧
    FrameBut [r] s (s.writeX r v) ∧ (s.writeX r v).pc = s.pc

/-- R110, R111: a push moves SP one lower, with wrap, and stores `v mod 256` there; a pop returns the byte
at SP and moves SP one higher, with wrap, and clears nothing. -/
def Obligations.StackPrimitives : Prop :=
  (∀ (s : State) (v : Nat), ∃ t, push s v = .ok t ∧ t.x .r7 = s.x .r7 - 1 ∧
    Memory.get t.mem (frameAddr s 1) = BitVec.ofNat 8 (v % 256) ∧
    StoreFrameBut [.r7] [frameAddr s 1] s t ∧ t.pc = s.pc) ∧
  ∀ s : State, ∃ t, pop s = .ok (Memory.get s.mem (s.x .r7).toNat, t) ∧ t.x .r7 = s.x .r7 + 1 ∧
    FrameBut [.r7] s t ∧ t.pc = s.pc

/-! ## The instructions: results, each with its encoding and its frame -/

/-- R90, R91: HLT halts and advances (D16); NOP only advances. -/
def Obligations.HltAndNop : Prop :=
  encode .hlt = [0x01] ∧ encode .nop = [0x00] ∧
  ∀ s : State,
    (∃ t, exec .hlt s = .next t ∧ t.run = .halted ∧ t.pc = s.pc + 1 ∧ SameRegsBut [] s t ∧
      t.fl = s.fl ∧ t.ie = s.ie ∧ t.out = s.out ∧ SameMemory s t) ∧
    ∃ t, exec .nop s = .next t ∧ t.pc = s.pc + 1 ∧ FrameBut [] s t

/-- R100: LDI. -/
def Obligations.LdiResult : Prop :=
  ∀ (a : Reg) (imm : Byte) (s : State), encode (.ldi a imm) = [0x99, a.toByte, imm] ∧
    ∃ t, exec (.ldi a imm) s = .next t ∧ t.x a = imm ∧ t.pc = s.pc + 3 ∧ FrameBut [a] s t

/-- R101: LD reads the cell its operand B addresses, with the register values before the write. The fault
the rule adds for an address beyond memory cannot arise with 256 cells. -/
def Obligations.LdResult : Prop :=
  ∀ (a b : Reg) (s : State), encode (.ld a b) = [0x98, a.toByte, b.toByte] ∧
    ∃ t, exec (.ld a b) s = .next t ∧ t.x a = Memory.get s.mem (s.x b).toNat ∧ t.pc = s.pc + 3 ∧
      FrameBut [a] s t

/-- R102: ST stores operand B's register at the address operand A's holds, and nothing else. -/
def Obligations.StResult : Prop :=
  ∀ (a b : Reg) (s : State), encode (.st a b) = [0x9A, a.toByte, b.toByte] ∧
    ∃ t, exec (.st a b) s = .next t ∧ Memory.get t.mem (regAddr s a) = s.x b ∧ t.pc = s.pc + 3 ∧
      StoreFrameBut [] [regAddr s a] s t

/-- R53: a store is fetched as stored by the very next step: a one-byte instruction stored where the pc
then stands is the one that runs. -/
def Obligations.StoredInstructionRunsNext : Prop :=
  ∀ (a b : Reg) (i : Instr) (s t : State), exec (.st a b) s = .next t → s.run = .running → s.Quiet →
    t.pc.toNat = (s.x a).toNat → encode i = [s.x b] → step t = exec i t

/-- R112: PUSH; PUSH R7 stores the decremented SP (D15). -/
def Obligations.PushResult : Prop :=
  ∀ (a : Reg) (s : State), encode (.push a) = [0x4D, a.toByte] ∧
    ∃ t, exec (.push a) s = .next t ∧ t.x .r7 = s.x .r7 - 1 ∧
      Memory.get t.mem (frameAddr s 1) = (if a = .r7 then s.x .r7 - 1 else s.x a) ∧
      t.pc = s.pc + 2 ∧ StoreFrameBut [.r7] [frameAddr s 1] s t

/-- R113: POP; POP R7 loads SP from the stack and then increments it (D15). -/
def Obligations.PopResult : Prop :=
  ∀ (a : Reg) (s : State), encode (.pop a) = [0x4C, a.toByte] ∧
    ∃ t, exec (.pop a) s = .next t ∧
      (a ≠ .r7 → t.x a = Memory.get s.mem (s.x .r7).toNat ∧ t.x .r7 = s.x .r7 + 1) ∧
      (a = .r7 → t.x .r7 = Memory.get s.mem (s.x .r7).toNat + 1) ∧
      t.pc = s.pc + 2 ∧ FrameBut [a, .r7] s t

/-- R114: PUSH then POP on the same register, R7 included, leaves every register as it was; PUSH of one
register and POP into another, neither R7, copies it and leaves SP as it was. -/
def Obligations.PushPopRoundTrip : Prop :=
  ∀ (a b : Reg) (s t u : State), exec (.push a) s = .next t →
    (exec (.pop a) t = .next u → ∀ r, u.x r = s.x r) ∧
    (a ≠ .r7 → b ≠ .r7 → exec (.pop b) t = .next u → u.x b = s.x a ∧ u.x .r7 = s.x .r7)

/-- R120: CALL pushes `pc + 2` modulo 256 and jumps to operand A's register, read after the push, so that
CALL R7 jumps to the decremented SP (D15). -/
def Obligations.CallResult : Prop :=
  ∀ (a : Reg) (s : State), encode (.call a) = [0x68, a.toByte] ∧
    ∃ t, exec (.call a) s = .next t ∧ t.x .r7 = s.x .r7 - 1 ∧
      Memory.get t.mem (frameAddr s 1) = BitVec.ofNat 8 ((s.pc.toNat + 2) % 256) ∧
      t.pc.toNat = (if a = .r7 then s.x .r7 - 1 else s.x a).toNat ∧
      StoreFrameBut [.r7] [frameAddr s 1] s t

/-- R121: RET jumps to the byte at SP and moves SP one higher. -/
def Obligations.RetResult : Prop :=
  encode .ret = [0x29] ∧
  ∀ s : State, ∃ t, exec .ret s = .next t ∧ t.pc.toNat = (Memory.get s.mem (s.x .r7).toNat).toNat ∧
    t.x .r7 = s.x .r7 + 1 ∧ FrameBut [.r7] s t

/-- R130: after a CALL, a RET in any state with the same SP and the return address still in its cell goes
to `pc + 2` of the CALL, modulo 256, with SP as before the CALL. -/
def Obligations.CallReturns : Prop :=
  ∀ (a : Reg) (s t u v : State), exec (.call a) s = .next t → u.x .r7 = t.x .r7 →
    Memory.get u.mem (t.x .r7).toNat = Memory.get t.mem (t.x .r7).toNat → exec .ret u = .next v →
    v.pc.toNat = (s.pc.toNat + 2) % 256 ∧ v.x .r7 = s.x .r7

/-- R122: JMP. -/
def Obligations.JmpResult : Prop :=
  ∀ (a : Reg) (s : State), encode (.jmp a) = [0x70, a.toByte] ∧
    ∃ t, exec (.jmp a) s = .next t ∧ t.pc.toNat = (s.x a).toNat ∧ FrameBut [] s t

/-- R123 to R127, R196: with at most one of `FL[2:0]` set, each conditional jump goes to operand A's
register on its own condition and else to the next instruction, and changes nothing but the pc; with more
than one set it faults with FlagInvariant, which records the pc, the opcode byte and FL, and changes nothing
else (D14). -/
def Obligations.ConditionalJumpResult : Prop :=
  ∀ (a : Reg) (s : State) (i : Instr) (op : Byte) (taken : Bool),
    (i = .jeq a ∧ op = 0x71 ∧ taken = s.fl.getLsbD 0) ∨
      (i = .jne a ∧ op = 0x72 ∧ taken = !s.fl.getLsbD 0) ∨
      (i = .jgt a ∧ op = 0x74 ∧ taken = s.fl.getLsbD 1) ∨
      (i = .jlt a ∧ op = 0x73 ∧ taken = s.fl.getLsbD 2) →
    encode i = [op, a.toByte] ∧
    (lowFlagCount s.fl ≤ 1 →
      ∃ t, exec i s = .next t ∧ (taken = true → t.pc.toNat = (s.x a).toNat) ∧
        (taken = false → t.pc = s.pc + 2) ∧ FrameBut [] s t) ∧
    (1 < lowFlagCount s.fl →
      exec i s = .next { s with run := .faulted (.flagInvariant s.pc op s.fl) })

/-- R140: INT sets the bit of R6 that operand A's register numbers, none when it is 8 or more, and falls
through (D3). -/
def Obligations.IntResult : Prop :=
  ∀ (a : Reg) (s : State), encode (.int a) = [0x4A, a.toByte] ∧
    ∃ t, exec (.int a) s = .next t ∧
      (∀ k < 8, (t.x .r6).getLsbD k = ((s.x .r6).getLsbD k || decide ((s.x a).toNat = k))) ∧
      t.pc = s.pc + 2 ∧ FrameBut [.r6] s t

/-- R141: IRET pops R6 down to R0, then FL, then pc, from nine ascending cells, and sets IE. -/
def Obligations.IretResult : Prop :=
  encode .iret = [0x2B] ∧
  ∀ s : State, ∃ t, exec .iret s = .next t ∧
    t.x .r6 = Memory.get s.mem (s.x .r7).toNat ∧ t.x .r5 = Memory.get s.mem (s.x .r7 + 1).toNat ∧
    t.x .r4 = Memory.get s.mem (s.x .r7 + 2).toNat ∧ t.x .r3 = Memory.get s.mem (s.x .r7 + 3).toNat ∧
    t.x .r2 = Memory.get s.mem (s.x .r7 + 4).toNat ∧ t.x .r1 = Memory.get s.mem (s.x .r7 + 5).toNat ∧
    t.x .r0 = Memory.get s.mem (s.x .r7 + 6).toNat ∧ t.fl = Memory.get s.mem (s.x .r7 + 7).toNat ∧
    t.pc.toNat = (Memory.get s.mem (s.x .r7 + 8).toNat).toNat ∧ t.x .r7 = s.x .r7 + 9 ∧
    t.ie = true ∧ t.run = s.run ∧ t.out = s.out ∧ SameMemory s t

/-- R150, R151: PRN appends the number event, PRA the character event, of operand A's register. -/
def Obligations.OutputResult : Prop :=
  ∀ (a : Reg) (s : State), encode (.prn a) = [0x43, a.toByte] ∧ encode (.pra a) = [0x42, a.toByte] ∧
    (∃ t, exec (.prn a) s = .next t ∧ t.out = s.out ++ [.num (s.x a)] ∧ t.pc = s.pc + 2 ∧
      SameRegsBut [] s t ∧ t.fl = s.fl ∧ t.ie = s.ie ∧ t.run = s.run ∧ SameMemory s t) ∧
    ∃ t, exec (.pra a) s = .next t ∧ t.out = s.out ++ [.chr (s.x a)] ∧ t.pc = s.pc + 2 ∧
      SameRegsBut [] s t ∧ t.fl = s.fl ∧ t.ie = s.ie ∧ t.run = s.run ∧ SameMemory s t

/-- R161 to R163: the exact sum, difference and product of the unsigned values, modulo 256, to operand A's
register; operand A is the left operand (D2). -/
def Obligations.AddSubMulResult : Prop :=
  ∀ (a b : Reg) (s : State), encode (.add a b) = [0x88, a.toByte, b.toByte] ∧
    encode (.sub a b) = [0x89, a.toByte, b.toByte] ∧ encode (.mul a b) = [0x8A, a.toByte, b.toByte] ∧
    (∃ t, exec (.add a b) s = .next t ∧
      (t.x a).toNat = ((s.x a).toNat + (s.x b).toNat) % 256 ∧ t.pc = s.pc + 3 ∧ FrameBut [a] s t) ∧
    (∃ t, exec (.sub a b) s = .next t ∧
      ((t.x a).toNat : Int) = ((s.x a).toNat - (s.x b).toNat : Int) % 256 ∧ t.pc = s.pc + 3 ∧
      FrameBut [a] s t) ∧
    ∃ t, exec (.mul a b) s = .next t ∧
      (t.x a).toNat = ((s.x a).toNat * (s.x b).toNat) % 256 ∧ t.pc = s.pc + 3 ∧ FrameBut [a] s t

/-- R164, R165, R192: with a divisor that is not 0, the floor of the quotient and the remainder; with a
zero divisor DivideByZero, which records the pc and the opcode byte and changes nothing else (D2). -/
def Obligations.DivModResult : Prop :=
  ∀ (a b : Reg) (s : State), encode (.div a b) = [0x8B, a.toByte, b.toByte] ∧
    encode (.mod a b) = [0x8C, a.toByte, b.toByte] ∧
    (s.x b ≠ 0 →
      (∃ t, exec (.div a b) s = .next t ∧ (t.x a).toNat = (s.x a).toNat / (s.x b).toNat ∧
        t.pc = s.pc + 3 ∧ FrameBut [a] s t) ∧
      ∃ t, exec (.mod a b) s = .next t ∧ (t.x a).toNat = (s.x a).toNat % (s.x b).toNat ∧
        t.pc = s.pc + 3 ∧ FrameBut [a] s t) ∧
    (s.x b = 0 →
      exec (.div a b) s = .next { s with run := .faulted (.divideByZero s.pc 0x8B) } ∧
      exec (.mod a b) s = .next { s with run := .faulted (.divideByZero s.pc 0x8C) })

/-- R166 to R169: AND, OR, XOR bit by bit to operand A's register, NOT the one's complement (D2). -/
def Obligations.BitwiseResult : Prop :=
  ∀ (a b : Reg) (s : State), encode (.and a b) = [0x93, a.toByte, b.toByte] ∧
    encode (.or a b) = [0x91, a.toByte, b.toByte] ∧ encode (.xor a b) = [0x92, a.toByte, b.toByte] ∧
    encode (.not a) = [0x50, a.toByte] ∧
    (∃ t, exec (.and a b) s = .next t ∧
      (∀ k < 8, (t.x a).getLsbD k = ((s.x a).getLsbD k && (s.x b).getLsbD k)) ∧ t.pc = s.pc + 3 ∧
      FrameBut [a] s t) ∧
    (∃ t, exec (.or a b) s = .next t ∧
      (∀ k < 8, (t.x a).getLsbD k = ((s.x a).getLsbD k || (s.x b).getLsbD k)) ∧ t.pc = s.pc + 3 ∧
      FrameBut [a] s t) ∧
    (∃ t, exec (.xor a b) s = .next t ∧
      (∀ k < 8, (t.x a).getLsbD k = ((s.x a).getLsbD k ^^ (s.x b).getLsbD k)) ∧ t.pc = s.pc + 3 ∧
      FrameBut [a] s t) ∧
    ∃ t, exec (.not a) s = .next t ∧ (t.x a).toNat = 255 - (s.x a).toNat ∧ t.pc = s.pc + 2 ∧
      FrameBut [a] s t

/-- R170, R171: INC and DEC by 1, with wrap. -/
def Obligations.IncDecResult : Prop :=
  ∀ (a : Reg) (s : State), encode (.inc a) = [0x58, a.toByte] ∧ encode (.dec a) = [0x59, a.toByte] ∧
    (∃ t, exec (.inc a) s = .next t ∧ (t.x a).toNat = ((s.x a).toNat + 1) % 256 ∧ t.pc = s.pc + 2 ∧
      FrameBut [a] s t) ∧
    ∃ t, exec (.dec a) s = .next t ∧ ((t.x a).toNat : Int) = ((s.x a).toNat - 1 : Int) % 256 ∧
      t.pc = s.pc + 2 ∧ FrameBut [a] s t

/-- R172: CMP sets exactly one of Equal, Greater and Less, by the unsigned comparison, keeps `FL[7:3]` and
writes no register (D2). -/
def Obligations.CmpResult : Prop :=
  ∀ (a b : Reg) (s : State), encode (.cmp a b) = [0x80, a.toByte, b.toByte] ∧
    ∃ t, exec (.cmp a b) s = .next t ∧
      t.fl.getLsbD 0 = decide ((s.x a).toNat = (s.x b).toNat) ∧
      t.fl.getLsbD 1 = decide ((s.x a).toNat > (s.x b).toNat) ∧
      t.fl.getLsbD 2 = decide ((s.x a).toNat < (s.x b).toNat) ∧
      (∀ k, 3 ≤ k → t.fl.getLsbD k = s.fl.getLsbD k) ∧ lowFlagCount t.fl = 1 ∧
      t.pc = s.pc + 3 ∧ SameRegsBut [] s t ∧ SameControl s t ∧ SameMemory s t

/-! ## Interrupts -/

/-- Either no interrupt is taken, and the interrupt phase then does nothing, or there is one line that is
taken, and only one: the lowest that is pending and unmasked (R201, R202, R205). -/
def Obligations.LowestEnabledLineIsTaken : Prop :=
  ∀ s : State, (s.Quiet → interruptPhase s = .ok s) ∧
    (¬ s.Quiet → ∃ i, s.TakesLine i ∧ interruptPhase s = enterInterrupt s i ∧
      ∀ j, s.TakesLine j → j = i)

/-- R206: the dispatch of line `i`: IE cleared, bit `i` of R6 cleared, the nine bytes of the frame pushed,
then the pc loaded from the vector as the pushes left it; no other state changes. -/
def Obligations.InterruptEntry : Prop :=
  ∀ (s : State) (i : Line), s.TakesLine i → ∃ t, interruptPhase s = .ok t ∧ t.ie = false ∧
    (∀ k < 8, (t.x .r6).getLsbD k = ((s.x .r6).getLsbD k && decide (k ≠ i.val))) ∧
    t.x .r7 = s.x .r7 - 9 ∧ SameRegsBut [.r6, .r7] s t ∧
    Memory.get t.mem (frameAddr s 1) = BitVec.ofNat 8 (s.pc.toNat % 256) ∧
    Memory.get t.mem (frameAddr s 2) = s.fl ∧ Memory.get t.mem (frameAddr s 3) = s.x .r0 ∧
    Memory.get t.mem (frameAddr s 4) = s.x .r1 ∧ Memory.get t.mem (frameAddr s 5) = s.x .r2 ∧
    Memory.get t.mem (frameAddr s 6) = s.x .r3 ∧ Memory.get t.mem (frameAddr s 7) = s.x .r4 ∧
    Memory.get t.mem (frameAddr s 8) = s.x .r5 ∧ Memory.get t.mem (frameAddr s 9) = t.x .r6 ∧
    SameMemoryBut ((List.range 9).map fun k => frameAddr s (k + 1)) s t ∧
    t.pc.toNat = (Memory.get t.mem (0xF8 + i.val)).toNat ∧ t.fl = s.fl ∧ t.run = s.run ∧
    t.out = s.out

/-- R209: from any later state with the stack pointer and the nine frame bytes as the dispatch left them,
IRET restores R0 to R5, FL and SP, R6 with bit `i` cleared, the interrupted pc (its low 8 bits, so exactly
it when it is at most 255) and IE = 1. -/
def Obligations.InterruptThenIretRestores : Prop :=
  ∀ (s t u : State) (i : Line), s.TakesLine i → interruptPhase s = .ok t → u.x .r7 = t.x .r7 →
    (∀ k, 1 ≤ k → k ≤ 9 → Memory.get u.mem (frameAddr s k) = Memory.get t.mem (frameAddr s k)) →
    ∃ v, exec .iret u = .next v ∧ (∀ r, r ≠ .r6 → v.x r = s.x r) ∧
      (∀ k < 8, (v.x .r6).getLsbD k = ((s.x .r6).getLsbD k && decide (k ≠ i.val))) ∧
      v.fl = s.fl ∧ v.pc.toNat = s.pc.toNat % 256 ∧ v.ie = true ∧ v.run = u.run ∧ v.out = u.out ∧
      SameMemory u v

/-- R210: while IE is 0 no interrupt is taken, and every instruction but IRET keeps it 0, so interrupts do
not nest. -/
def Obligations.InterruptsDoNotNest : Prop :=
  ∀ (s t : State) (i : Instr), s.ie = false → interruptPhase s = .ok s ∧
    (i ≠ .iret → exec i s = .next t → interruptPhase t = .ok t)
end

