-- ==== Sys2Proof/Laws/Memory.lean ====
section
/-!
SUPPORT. The laws of the memory: a read after a write (20_memory.md R42, R43), every other cell left
alone, and the canonical form kept by every operation.
-/

namespace Sys2Proof.Machine

@[simp] theorem Memory.get_nil (a : Nat) : Memory.get [] a = Config.unlisted := rfl

theorem Memory.get_erase_self (m : Memory) (a : Nat) :
    Memory.get (Memory.erase m a) a = Config.unlisted := by
  induction m with
  | nil => rfl
  | cons c m ih =>
    obtain ⟨k, v⟩ := c
    by_cases h : k = a <;> simp [Memory.erase, Memory.get, h, ih]

theorem Memory.get_erase_ne (m : Memory) {a k : Nat} (h : k ≠ a) :
    Memory.get (Memory.erase m a) k = Memory.get m k := by
  induction m with
  | nil => rfl
  | cons c m ih =>
    obtain ⟨j, v⟩ := c
    by_cases hj : j = a
    · subst hj; simp [Memory.erase, Memory.get, ih, Ne.symm h]
    · simp [Memory.erase, Memory.get, hj, ih]

theorem Memory.get_place_self (m : Memory) (a : Nat) (b : Byte)
    (h : Memory.erase m a = m) : Memory.get (Memory.place m a b) a = b := by
  induction m with
  | nil => simp [Memory.place, Memory.get]
  | cons c m ih =>
    obtain ⟨k, v⟩ := c
    by_cases hk : k = a
    · subst hk
      exfalso
      have hlen : ∀ (l : Memory) (x : Nat), (Memory.erase l x).length ≤ l.length := by
        intro l x
        induction l with
        | nil => simp [Memory.erase]
        | cons d l il =>
          obtain ⟨j, w⟩ := d
          by_cases hj : j = x
          · simp only [Memory.erase, hj, if_true, List.length_cons]; omega
          · simp only [Memory.erase, hj, if_false, List.length_cons]; omega
      have e : Memory.erase m k = (k, v) :: m := by simpa [Memory.erase] using h
      have := hlen m k
      rw [e] at this
      simp at this
    · have hm : Memory.erase m a = m := by simpa [Memory.erase, hk] using h
      by_cases hlt : a < k
      · simp [Memory.place, Memory.get, hlt]
      · simp [Memory.place, Memory.get, hlt, hk, ih hm]

theorem Memory.get_place_ne (m : Memory) {a k : Nat} (b : Byte) (h : k ≠ a) :
    Memory.get (Memory.place m a b) k = Memory.get m k := by
  induction m with
  | nil => simp [Memory.place, Memory.get, Ne.symm h]
  | cons c m ih =>
    obtain ⟨j, v⟩ := c
    by_cases hlt : a < j
    · simp [Memory.place, Memory.get, hlt, Ne.symm h]
    · simp [Memory.place, Memory.get, hlt, ih]

theorem Memory.erase_erase (m : Memory) (a : Nat) :
    Memory.erase (Memory.erase m a) a = Memory.erase m a := by
  induction m with
  | nil => rfl
  | cons c m ih =>
    obtain ⟨k, v⟩ := c
    by_cases h : k = a <;> simp [Memory.erase, h, ih]

/-- The law of `Memory.set`, in every memory: the cell written reads as written, every other as before. -/
theorem Memory.get_set (m : Memory) (a k : Nat) (b : Byte) :
    Memory.get (Memory.set m a b) k = if k = a then b else Memory.get m k := by
  unfold Memory.set
  by_cases hb : b = Config.unlisted
  · by_cases h : k = a
    · subst h; simp [hb, Memory.get_erase_self]
    · simp [hb, h, Memory.get_erase_ne m h]
  · by_cases h : k = a
    · subst h; simp [hb, Memory.get_place_self _ _ _ (Memory.erase_erase m k)]
    · simp [hb, h, Memory.get_place_ne _ b h, Memory.get_erase_ne m h]

@[simp] theorem Memory.get_set_self (m : Memory) (a : Nat) (b : Byte) :
    Memory.get (Memory.set m a b) a = b := by
  simp [Memory.get_set]

theorem Memory.get_set_ne (m : Memory) {a k : Nat} (b : Byte) (h : k ≠ a) :
    Memory.get (Memory.set m a b) k = Memory.get m k := by
  simp [Memory.get_set, h]

/-! ### The canonical form -/

theorem Memory.wfFrom_mono (m : Memory) {lo hi : Nat} (h : Memory.wfFrom hi m = true) (hl : lo ≤ hi) :
    Memory.wfFrom lo m = true := by
  cases m with
  | nil => rfl
  | cons c m =>
    obtain ⟨k, v⟩ := c
    simp only [Memory.wfFrom, Bool.and_eq_true, decide_eq_true_eq] at h ⊢
    exact ⟨⟨⟨by omega, h.1.1.2⟩, h.1.2⟩, h.2⟩

theorem Memory.wfFrom_erase (m : Memory) (lo a : Nat) (h : Memory.wfFrom lo m = true) :
    Memory.wfFrom lo (Memory.erase m a) = true := by
  induction m generalizing lo with
  | nil => rfl
  | cons c m ih =>
    obtain ⟨k, v⟩ := c
    simp only [Memory.wfFrom, Bool.and_eq_true, decide_eq_true_eq] at h
    by_cases hk : k = a
    · simp only [Memory.erase, hk, if_true]
      exact Memory.wfFrom_mono _ (ih (k + 1) h.2) (by omega)
    · simp only [Memory.erase, hk, if_false, Memory.wfFrom, Bool.and_eq_true, decide_eq_true_eq]
      exact ⟨h.1, ih (k + 1) h.2⟩

/-- Erased, a canonical memory has no entry at the address. -/
theorem Memory.wfFrom_place (m : Memory) (lo a : Nat) (b : Byte) (h : Memory.wfFrom lo m = true)
    (he : Memory.erase m a = m) (hlo : lo ≤ a) (ha : a < Config.memSize) (hb : b ≠ Config.unlisted) :
    Memory.wfFrom lo (Memory.place m a b) = true := by
  induction m generalizing lo with
  | nil => simp [Memory.place, Memory.wfFrom, hlo, ha, hb]
  | cons c m ih =>
    obtain ⟨k, v⟩ := c
    simp only [Memory.wfFrom, Bool.and_eq_true, decide_eq_true_eq] at h
    by_cases hlt : a < k
    · simp only [Memory.place, hlt, if_true, Memory.wfFrom, Bool.and_eq_true, decide_eq_true_eq]
      exact ⟨⟨⟨hlo, ha⟩, hb⟩, ⟨⟨by omega, h.1.1.2⟩, h.1.2⟩, h.2⟩
    · have hk : k ≠ a := by
        intro hk
        subst hk
        have g := Memory.get_erase_self ((k, v) :: m) k
        rw [he] at g
        exact h.1.2 (by simpa [Memory.get] using g)
      have hm : Memory.erase m a = m := by simpa [Memory.erase, hk] using he
      simp only [Memory.place, hlt, if_false, Memory.wfFrom, Bool.and_eq_true, decide_eq_true_eq]
      exact ⟨h.1, ih (k + 1) h.2 hm (by omega)⟩

theorem Memory.wf_set (m : Memory) (a : Nat) (b : Byte) (h : Memory.wf m = true)
    (ha : a < Config.memSize) : Memory.wf (Memory.set m a b) = true := by
  unfold Memory.set
  by_cases hb : b = Config.unlisted
  · rw [if_pos hb]
    exact Memory.wfFrom_erase m 0 a h
  · rw [if_neg hb]
    exact Memory.wfFrom_place _ 0 a b (Memory.wfFrom_erase m 0 a h)
      (Memory.erase_erase m a) (Nat.zero_le a) ha hb

theorem Memory.wf_storeBytes (bs : List Byte) (m : Memory) (a : Nat) (h : Memory.wf m = true) :
    Memory.wf (storeBytes m a bs) = true := by
  induction bs generalizing m a with
  | nil => exact h
  | cons b bs ih =>
    unfold storeBytes
    split
    · exact ih _ _ (Memory.wf_set m a b h ‹_›)
    · exact ih _ _ h

theorem State.reset_mem_wf : Memory.wf State.reset.mem = true := rfl

/-- What a load of bytes leaves in a cell (70_reset_and_hazards.md R236). -/
theorem Memory.get_storeBytes (bs : List Byte) (m : Memory) (a k : Nat) :
    Memory.get (storeBytes m a bs) k =
      if h : a ≤ k ∧ k - a < bs.length ∧ k < Config.memSize then bs[k - a]'h.2.1
      else Memory.get m k := by
  induction bs generalizing m a with
  | nil => simp [storeBytes]
  | cons b bs ih =>
    simp only [storeBytes, ih, List.length_cons]
    by_cases hka : k = a
    · subst hka
      rw [dif_neg (by omega)]
      by_cases hk : k < Config.memSize
      · simp [hk]
      · simp [hk]
    · by_cases h1 : a + 1 ≤ k ∧ k - (a + 1) < bs.length ∧ k < Config.memSize
      · have h2 : a ≤ k ∧ k - a < bs.length + 1 ∧ k < Config.memSize := by omega
        rw [dif_pos h1, dif_pos h2]
        have e : k - a = (k - (a + 1)) + 1 := by omega
        simp [e]
      · have h2 : ¬ (a ≤ k ∧ k - a < bs.length + 1 ∧ k < Config.memSize) := by omega
        rw [dif_neg h1, dif_neg h2]
        split
        · exact Memory.get_set_ne m b hka
        · rfl

end Sys2Proof.Machine
end

