-- ==== Sys2Proof/Laws/State.lean ====
section
/-!
SUPPORT. The small lemmas of the state: what each update makes of each field, and of each register as it
is read. True by rfl, but for the reading of one register after the writing of another.
-/

namespace Sys2Proof.Machine

/-! ### State.setX -/

@[simp] theorem State.setX_regs (s : State) (r : Reg) (v : Byte) : (s.setX r v).regs = s.regs.set r v := rfl
@[simp] theorem State.setX_pc (s : State) (r : Reg) (v : Byte) : (s.setX r v).pc = s.pc := rfl
@[simp] theorem State.setX_fl (s : State) (r : Reg) (v : Byte) : (s.setX r v).fl = s.fl := rfl
@[simp] theorem State.setX_ie (s : State) (r : Reg) (v : Byte) : (s.setX r v).ie = s.ie := rfl
@[simp] theorem State.setX_mem (s : State) (r : Reg) (v : Byte) : (s.setX r v).mem = s.mem := rfl
@[simp] theorem State.setX_run (s : State) (r : Reg) (v : Byte) : (s.setX r v).run = s.run := rfl
@[simp] theorem State.setX_out (s : State) (r : Reg) (v : Byte) : (s.setX r v).out = s.out := rfl

/-! ### State.writeX -/

@[simp] theorem State.writeX_regs (s : State) (r : Reg) (v : Int) : (s.writeX r v).regs = s.regs.set r (narrow v) := rfl
@[simp] theorem State.writeX_pc (s : State) (r : Reg) (v : Int) : (s.writeX r v).pc = s.pc := rfl
@[simp] theorem State.writeX_fl (s : State) (r : Reg) (v : Int) : (s.writeX r v).fl = s.fl := rfl
@[simp] theorem State.writeX_ie (s : State) (r : Reg) (v : Int) : (s.writeX r v).ie = s.ie := rfl
@[simp] theorem State.writeX_mem (s : State) (r : Reg) (v : Int) : (s.writeX r v).mem = s.mem := rfl
@[simp] theorem State.writeX_run (s : State) (r : Reg) (v : Int) : (s.writeX r v).run = s.run := rfl
@[simp] theorem State.writeX_out (s : State) (r : Reg) (v : Int) : (s.writeX r v).out = s.out := rfl

/-! ### State.advance -/

@[simp] theorem State.advance_regs (s : State) (n : Nat) : (s.advance n).regs = s.regs := rfl
@[simp] theorem State.advance_pc (s : State) (n : Nat) : (s.advance n).pc = s.pc + BitVec.ofNat 9 n := rfl
@[simp] theorem State.advance_fl (s : State) (n : Nat) : (s.advance n).fl = s.fl := rfl
@[simp] theorem State.advance_ie (s : State) (n : Nat) : (s.advance n).ie = s.ie := rfl
@[simp] theorem State.advance_mem (s : State) (n : Nat) : (s.advance n).mem = s.mem := rfl
@[simp] theorem State.advance_run (s : State) (n : Nat) : (s.advance n).run = s.run := rfl
@[simp] theorem State.advance_out (s : State) (n : Nat) : (s.advance n).out = s.out := rfl
@[simp] theorem State.advance_x (s : State) (n : Nat) (q : Reg) : (s.advance n).x q = s.x q := rfl
@[simp] theorem State.advance_pending (s : State) (n : Nat) : (s.advance n).pending = s.pending := rfl

/-! ### State.jumpTo -/

@[simp] theorem State.jumpTo_regs (s : State) (v : Byte) : (s.jumpTo v).regs = s.regs := rfl
@[simp] theorem State.jumpTo_pc (s : State) (v : Byte) : (s.jumpTo v).pc = v.setWidth 9 := rfl
@[simp] theorem State.jumpTo_fl (s : State) (v : Byte) : (s.jumpTo v).fl = s.fl := rfl
@[simp] theorem State.jumpTo_ie (s : State) (v : Byte) : (s.jumpTo v).ie = s.ie := rfl
@[simp] theorem State.jumpTo_mem (s : State) (v : Byte) : (s.jumpTo v).mem = s.mem := rfl
@[simp] theorem State.jumpTo_run (s : State) (v : Byte) : (s.jumpTo v).run = s.run := rfl
@[simp] theorem State.jumpTo_out (s : State) (v : Byte) : (s.jumpTo v).out = s.out := rfl
@[simp] theorem State.jumpTo_x (s : State) (v : Byte) (q : Reg) : (s.jumpTo v).x q = s.x q := rfl
@[simp] theorem State.jumpTo_pending (s : State) (v : Byte) : (s.jumpTo v).pending = s.pending := rfl

/-! ### State.setFl -/

@[simp] theorem State.setFl_regs (s : State) (v : Byte) : (s.setFl v).regs = s.regs := rfl
@[simp] theorem State.setFl_pc (s : State) (v : Byte) : (s.setFl v).pc = s.pc := rfl
@[simp] theorem State.setFl_fl (s : State) (v : Byte) : (s.setFl v).fl = v := rfl
@[simp] theorem State.setFl_ie (s : State) (v : Byte) : (s.setFl v).ie = s.ie := rfl
@[simp] theorem State.setFl_mem (s : State) (v : Byte) : (s.setFl v).mem = s.mem := rfl
@[simp] theorem State.setFl_run (s : State) (v : Byte) : (s.setFl v).run = s.run := rfl
@[simp] theorem State.setFl_out (s : State) (v : Byte) : (s.setFl v).out = s.out := rfl
@[simp] theorem State.setFl_x (s : State) (v : Byte) (q : Reg) : (s.setFl v).x q = s.x q := rfl
@[simp] theorem State.setFl_pending (s : State) (v : Byte) : (s.setFl v).pending = s.pending := rfl

/-! ### State.setIe -/

@[simp] theorem State.setIe_regs (s : State) (b : Bool) : (s.setIe b).regs = s.regs := rfl
@[simp] theorem State.setIe_pc (s : State) (b : Bool) : (s.setIe b).pc = s.pc := rfl
@[simp] theorem State.setIe_fl (s : State) (b : Bool) : (s.setIe b).fl = s.fl := rfl
@[simp] theorem State.setIe_ie (s : State) (b : Bool) : (s.setIe b).ie = b := rfl
@[simp] theorem State.setIe_mem (s : State) (b : Bool) : (s.setIe b).mem = s.mem := rfl
@[simp] theorem State.setIe_run (s : State) (b : Bool) : (s.setIe b).run = s.run := rfl
@[simp] theorem State.setIe_out (s : State) (b : Bool) : (s.setIe b).out = s.out := rfl
@[simp] theorem State.setIe_x (s : State) (b : Bool) (q : Reg) : (s.setIe b).x q = s.x q := rfl
@[simp] theorem State.setIe_pending (s : State) (b : Bool) : (s.setIe b).pending = s.pending := rfl

/-! ### State.setRun -/

@[simp] theorem State.setRun_regs (s : State) (q : RunState) : (s.setRun q).regs = s.regs := rfl
@[simp] theorem State.setRun_pc (s : State) (q : RunState) : (s.setRun q).pc = s.pc := rfl
@[simp] theorem State.setRun_fl (s : State) (q : RunState) : (s.setRun q).fl = s.fl := rfl
@[simp] theorem State.setRun_ie (s : State) (q : RunState) : (s.setRun q).ie = s.ie := rfl
@[simp] theorem State.setRun_mem (s : State) (q : RunState) : (s.setRun q).mem = s.mem := rfl
@[simp] theorem State.setRun_run (s : State) (q : RunState) : (s.setRun q).run = q := rfl
@[simp] theorem State.setRun_out (s : State) (q : RunState) : (s.setRun q).out = s.out := rfl
@[simp] theorem State.setRun_x (s : State) (w : RunState) (q : Reg) : (s.setRun w).x q = s.x q := rfl
@[simp] theorem State.setRun_pending (s : State) (q : RunState) : (s.setRun q).pending = s.pending := rfl

/-! ### State.setMem -/

@[simp] theorem State.setMem_regs (s : State) (m : Memory) : (s.setMem m).regs = s.regs := rfl
@[simp] theorem State.setMem_pc (s : State) (m : Memory) : (s.setMem m).pc = s.pc := rfl
@[simp] theorem State.setMem_fl (s : State) (m : Memory) : (s.setMem m).fl = s.fl := rfl
@[simp] theorem State.setMem_ie (s : State) (m : Memory) : (s.setMem m).ie = s.ie := rfl
@[simp] theorem State.setMem_mem (s : State) (m : Memory) : (s.setMem m).mem = m := rfl
@[simp] theorem State.setMem_run (s : State) (m : Memory) : (s.setMem m).run = s.run := rfl
@[simp] theorem State.setMem_out (s : State) (m : Memory) : (s.setMem m).out = s.out := rfl
@[simp] theorem State.setMem_x (s : State) (m : Memory) (q : Reg) : (s.setMem m).x q = s.x q := rfl
@[simp] theorem State.setMem_pending (s : State) (m : Memory) : (s.setMem m).pending = s.pending := rfl

/-! ### State.emit -/

@[simp] theorem State.emit_regs (s : State) (e : OutEvent) : (s.emit e).regs = s.regs := rfl
@[simp] theorem State.emit_pc (s : State) (e : OutEvent) : (s.emit e).pc = s.pc := rfl
@[simp] theorem State.emit_fl (s : State) (e : OutEvent) : (s.emit e).fl = s.fl := rfl
@[simp] theorem State.emit_ie (s : State) (e : OutEvent) : (s.emit e).ie = s.ie := rfl
@[simp] theorem State.emit_mem (s : State) (e : OutEvent) : (s.emit e).mem = s.mem := rfl
@[simp] theorem State.emit_run (s : State) (e : OutEvent) : (s.emit e).run = s.run := rfl
@[simp] theorem State.emit_out (s : State) (e : OutEvent) : (s.emit e).out = s.out ++ [e] := rfl
@[simp] theorem State.emit_x (s : State) (e : OutEvent) (q : Reg) : (s.emit e).x q = s.x q := rfl
@[simp] theorem State.emit_pending (s : State) (e : OutEvent) : (s.emit e).pending = s.pending := rfl

/-! ### State.takeFault -/

@[simp] theorem State.takeFault_regs (s : State) (f : Fault) : (s.takeFault f).regs = s.regs := rfl
@[simp] theorem State.takeFault_pc (s : State) (f : Fault) : (s.takeFault f).pc = s.pc := rfl
@[simp] theorem State.takeFault_fl (s : State) (f : Fault) : (s.takeFault f).fl = s.fl := rfl
@[simp] theorem State.takeFault_ie (s : State) (f : Fault) : (s.takeFault f).ie = s.ie := rfl
@[simp] theorem State.takeFault_mem (s : State) (f : Fault) : (s.takeFault f).mem = s.mem := rfl
@[simp] theorem State.takeFault_run (s : State) (f : Fault) : (s.takeFault f).run = .faulted f := rfl
@[simp] theorem State.takeFault_out (s : State) (f : Fault) : (s.takeFault f).out = s.out := rfl
@[simp] theorem State.takeFault_x (s : State) (f : Fault) (q : Reg) : (s.takeFault f).x q = s.x q := rfl
@[simp] theorem State.takeFault_pending (s : State) (f : Fault) : (s.takeFault f).pending = s.pending := rfl

/-! ### Registers -/

theorem Regs.get_set (g : Regs) (r q : Reg) (v : Byte) :
    (g.set r v).get q = if q = r then v else g.get q := by
  cases r <;> cases q <;> rfl

theorem Regs.set_get (g : Regs) (r : Reg) : g.set r (g.get r) = g := by
  cases r <;> rfl

theorem Regs.ext_get {g h : Regs} (e : ∀ r, g.get r = h.get r) : g = h := by
  cases g; cases h
  have e0 := e .r0; have e1 := e .r1; have e2 := e .r2; have e3 := e .r3
  have e4 := e .r4; have e5 := e .r5; have e6 := e .r6; have e7 := e .r7
  simp only [Regs.get] at e0 e1 e2 e3 e4 e5 e6 e7
  subst e0 e1 e2 e3 e4 e5 e6 e7
  rfl

theorem State.setX_x (s : State) (r q : Reg) (v : Byte) :
    (s.setX r v).x q = if q = r then v else s.x q := Regs.get_set s.regs r q v

@[simp] theorem State.setX_x_self (s : State) (r : Reg) (v : Byte) : (s.setX r v).x r = v := by
  simp [State.setX_x]

theorem State.setX_x_ne (s : State) {r q : Reg} (v : Byte) (h : q ≠ r) :
    (s.setX r v).x q = s.x q := by
  simp [State.setX_x, h]

theorem State.writeX_x (s : State) (r q : Reg) (v : Int) :
    (s.writeX r v).x q = if q = r then narrow v else s.x q := State.setX_x s r q (narrow v)

@[simp] theorem State.writeX_x_self (s : State) (r : Reg) (v : Int) :
    (s.writeX r v).x r = narrow v := State.setX_x_self s r (narrow v)

theorem State.writeX_x_ne (s : State) {r q : Reg} (v : Int) (h : q ≠ r) :
    (s.writeX r v).x q = s.x q := State.setX_x_ne s (narrow v) h

/-- Two states with the same registers and the same other fields are the same state. -/
theorem State.ext_fields {s t : State} (hx : ∀ r, t.x r = s.x r) (hp : t.pc = s.pc) (hf : t.fl = s.fl)
    (hi : t.ie = s.ie) (hm : t.mem = s.mem) (hr : t.run = s.run) (ho : t.out = s.out) : t = s := by
  cases s; cases t
  simp only at hp hf hi hm hr ho
  have hg := Regs.ext_get hx
  simp only at hg
  subst hg hp hf hi hm hr ho
  rfl

/-- The registers at reset (10_state.md R29). -/
@[simp] theorem State.reset_x (r : Reg) :
    State.reset.x r = if r = .r7 then Config.spReset else 0 := by
  cases r <;> rfl

end Sys2Proof.Machine
end

