-- ==== Sys2Proof/Laws/Ops.lean ====
section
/-!
SUPPORT. One lemma per shared operation that says everything it can do, so that no later proof unfolds it:
the narrowing of a register write, the memory access, the stack, and the fault entry.
-/

namespace Sys2Proof.Machine

/-! ### Narrowing (10_state.md R11) -/

/-- The register afterwards holds `v mod 256`. -/
theorem narrow_toNat (v : Int) : ((narrow v).toNat : Int) = v % 256 := by
  unfold narrow
  rw [BitVec.toNat_ofInt]
  omega

theorem narrow_natCast (n : Nat) : narrow (n : Int) = BitVec.ofNat 8 n := by
  apply BitVec.eq_of_toNat_eq
  have := narrow_toNat n
  simp only [BitVec.toNat_ofNat]
  omega

@[simp] theorem narrow_byte (b : Byte) : narrow (b.toNat : Int) = b := by
  rw [narrow_natCast]; simp

theorem narrow_sub_one (b : Byte) : narrow ((b.toNat : Int) - 1) = b - 1#8 := by
  apply BitVec.eq_of_toNat_eq
  have := narrow_toNat ((b.toNat : Int) - 1)
  have hb := b.isLt
  simp only [BitVec.toNat_sub, BitVec.toNat_ofNat]
  omega

theorem narrow_add_one (b : Byte) : narrow ((b.toNat : Int) + 1) = b + 1#8 := by
  apply BitVec.eq_of_toNat_eq
  have := narrow_toNat ((b.toNat : Int) + 1)
  have hb := b.isLt
  simp only [BitVec.toNat_add, BitVec.toNat_ofNat]
  omega

/-! ### Phases (60_exceptions.md R194, R195) -/

@[simp] theorem endPhase_ok (s t : State) : endPhase s (.ok t) = .next t := rfl

@[simp] theorem endPhase_error (s : State) (f : Fault) :
    endPhase s (.error f) = .next (s.takeFault f) := rfl

@[simp] theorem bind_ok {α β : Type} (a : α) (f : α → Except Fault β) :
    (Except.ok a : Except Fault α).bind f = f a := rfl

@[simp] theorem bind_error {α β : Type} (e : Fault) (f : α → Except Fault β) :
    (Except.error e : Except Fault α).bind f = .error e := rfl

/-- A phase always ends in a next state. -/
theorem endPhase_next (s : State) (r : Except Fault State) : ∃ t, endPhase s r = .next t := by
  cases r <;> exact ⟨_, rfl⟩

/-! ### Memory access (20_memory.md R42, R43, R49) -/

theorem memRead_ok (s : State) {a : Nat} (h : a < Config.memSize) :
    memRead s a = .ok (Memory.get s.mem a) := by
  simp [memRead, Nat.not_le.mpr h]

theorem memRead_error (s : State) {a : Nat} (h : Config.memSize ≤ a) :
    memRead s a = .error (.outOfBounds s.pc a) := by
  simp [memRead, h]

theorem memWrite_ok (s : State) {a : Nat} (v : Nat) (h : a < Config.memSize) :
    memWrite s a v = .ok (s.setMem (Memory.set s.mem a (BitVec.ofNat 8 v))) := by
  simp [memWrite, Nat.not_le.mpr h]

theorem memWrite_error (s : State) {a : Nat} (v : Nat) (h : Config.memSize ≤ a) :
    memWrite s a v = .error (.outOfBounds s.pc a) := by
  simp [memWrite, h]

/-- An address held in a byte is always inside memory. -/
theorem byte_lt_memSize (b : Byte) : b.toNat < Config.memSize := b.isLt

@[simp] theorem memRead_byte (s : State) (b : Byte) :
    memRead s b.toNat = .ok (Memory.get s.mem b.toNat) := memRead_ok s (byte_lt_memSize b)

@[simp] theorem memWrite_byte (s : State) (b : Byte) (v : Nat) :
    memWrite s b.toNat v = .ok (s.setMem (Memory.set s.mem b.toNat (BitVec.ofNat 8 v))) :=
  memWrite_ok s v (byte_lt_memSize b)

/-! ### The stack (42_stack.md R110, R111) -/

/-- A push always answers: SP one lower, `v mod 256` at the new SP. -/
theorem push_eq (s : State) (v : Nat) :
    push s v = .ok ((s.setX .r7 (s.x .r7 - 1#8)).setMem
      (Memory.set s.mem (s.x .r7 - 1#8).toNat (BitVec.ofNat 8 v))) := by
  simp only [push, State.writeX, narrow_sub_one, State.setX_x_self, memWrite_byte,
    State.setX_mem]

/-- A pop always answers: the byte at SP, and SP one higher. -/
theorem pop_eq (s : State) :
    pop s = .ok (Memory.get s.mem (s.x .r7).toNat, s.setX .r7 (s.x .r7 + 1#8)) := by
  simp only [pop, memRead_byte, bind_ok, State.writeX, narrow_add_one]

end Sys2Proof.Machine
end

