-- ==== Sys2Proof/Laws/Interrupts.lean ====
section
/-!
SUPPORT. What entering and leaving an interrupt do, in closed form (60_exceptions.md R206, R207;
44_interrupt_instructions.md R141): the memory a run of pushes leaves, the dispatch, the return.
-/

namespace Sys2Proof.Machine

/-- What pushing the values `vs` from SP `sp` makes of a memory. -/
def frameMem (m : Memory) (sp : Byte) : List Nat → Memory
  | [] => m
  | v :: vs => frameMem (Memory.set m (sp - 1#8).toNat (BitVec.ofNat 8 v)) (sp - 1#8) vs

theorem State.setX_setMem (s : State) (r : Reg) (v : Byte) (m : Memory) :
    (s.setMem m).setX r v = (s.setX r v).setMem m := rfl

theorem Regs.set_set (g : Regs) (r : Reg) (v w : Byte) : (g.set r v).set r w = g.set r w := by
  cases r <;> rfl

theorem State.setX_setX (s : State) (r : Reg) (v w : Byte) :
    (s.setX r v).setX r w = s.setX r w := by
  simp [State.setX, Regs.set_set]

theorem State.setX_self (s : State) (r : Reg) : s.setX r (s.x r) = s := by
  simp [State.setX, State.x, Regs.set_get]

/-- Pushing a list always answers. -/
theorem pushAll_eq (vs : List Nat) (s : State) :
    pushAll s vs = .ok ((s.setX .r7 (s.x .r7 - BitVec.ofNat 8 vs.length)).setMem
      (frameMem s.mem (s.x .r7) vs)) := by
  induction vs generalizing s with
  | nil =>
    have h : s.x .r7 - BitVec.ofNat 8 0 = s.x .r7 := by simp
    simp only [pushAll, List.length_nil, frameMem, h, State.setX_self]
    rfl
  | cons v vs ih =>
    have h : s.x .r7 - 1#8 - BitVec.ofNat 8 vs.length = s.x .r7 - BitVec.ofNat 8 (vs.length + 1) := by
      apply BitVec.eq_of_toNat_eq
      simp only [BitVec.toNat_sub, BitVec.toNat_ofNat]
      omega
    simp only [pushAll, push_eq, bind_ok, ih, List.length_cons, frameMem, State.setX_setMem,
      State.setMem_x, State.setX_x_self, State.setX_setX, State.setMem_mem, h]
    rfl

theorem frameMem_get_ne (vs : List Nat) (m : Memory) (sp : Byte) (k : Nat)
    (h : ∀ j, 1 ≤ j → j ≤ vs.length → k ≠ (sp - BitVec.ofNat 8 j).toNat) :
    Memory.get (frameMem m sp vs) k = Memory.get m k := by
  induction vs generalizing m sp with
  | nil => rfl
  | cons v vs ih =>
    rw [frameMem, ih, Memory.get_set_ne]
    · exact h 1 (by omega) (by simp)
    · intro j h1 h2
      have := h (j + 1) (by omega) (by simpa using h2)
      intro e
      apply this
      rw [e]
      simp only [BitVec.toNat_sub, BitVec.toNat_ofNat]
      omega

theorem frameMem_get_at (vs : List Nat) (m : Memory) (sp : Byte) (j : Nat) (h1 : 1 ≤ j)
    (h2 : j ≤ vs.length) (h3 : vs.length ≤ 256) :
    Memory.get (frameMem m sp vs) (sp - BitVec.ofNat 8 j).toNat =
      BitVec.ofNat 8 (vs[j - 1]'(by omega)) := by
  induction vs generalizing m sp j with
  | nil => simp at h2; omega
  | cons v vs ih =>
    rw [List.length_cons] at h2 h3
    by_cases hj : j = 1
    · subst hj
      rw [frameMem, frameMem_get_ne]
      · simp
      · intro i hi1 hi2
        simp only [ne_eq, BitVec.toNat_sub, BitVec.toNat_ofNat]
        omega
    · obtain ⟨i, rfl⟩ : ∃ i, j = i + 1 := ⟨j - 1, by omega⟩
      have e : (sp - BitVec.ofNat 8 (i + 1)).toNat = (sp - 1#8 - BitVec.ofNat 8 i).toNat := by
        simp only [BitVec.toNat_sub, BitVec.toNat_ofNat]
        omega
      rw [frameMem, e, ih _ _ i (by omega) (by omega) (by omega)]
      have : i + 1 - 1 = (i - 1) + 1 := by omega
      simp [this]

theorem frameMem_wf (vs : List Nat) (m : Memory) (sp : Byte) (h : Memory.wf m = true) :
    Memory.wf (frameMem m sp vs) = true := by
  induction vs generalizing m sp with
  | nil => exact h
  | cons v vs ih => exact ih _ _ (Memory.wf_set _ _ _ h (byte_lt_memSize _))

theorem enterInterrupt_eq (s : State) (i : Line) :
    let is := s.x .r6 &&& ~~~(lineBit i)
    let m := frameMem s.mem (s.x .r7)
      [s.pc.toNat, s.fl.toNat, (s.x .r0).toNat, (s.x .r1).toNat, (s.x .r2).toNat, (s.x .r3).toNat,
        (s.x .r4).toNat, (s.x .r5).toNat, is.toNat]
    enterInterrupt s i = .ok
      (((((s.setIe false).setX .r6 is).setX .r7 (s.x .r7 - 9#8)).setMem m).jumpTo
        (Memory.get m (Config.vecBase + i.val))) := by
  have hv : Config.vecBase + i.val < Config.memSize := by
    have := i.isLt
    simp only [Config.vecBase, Config.memSize]; omega
  simp only [enterInterrupt, pushAll_eq, bind_ok, memRead_ok _ hv]
  rfl

theorem leaveInterrupt_eq (s : State) :
    leaveInterrupt s = .ok { s with
      regs :=
        { r0 := Memory.get s.mem (s.x .r7 + 6#8).toNat
          r1 := Memory.get s.mem (s.x .r7 + 5#8).toNat
          r2 := Memory.get s.mem (s.x .r7 + 4#8).toNat
          r3 := Memory.get s.mem (s.x .r7 + 3#8).toNat
          r4 := Memory.get s.mem (s.x .r7 + 2#8).toNat
          r5 := Memory.get s.mem (s.x .r7 + 1#8).toNat
          r6 := Memory.get s.mem (s.x .r7).toNat
          r7 := s.x .r7 + 9#8 }
      fl := Memory.get s.mem (s.x .r7 + 7#8).toNat
      pc := (Memory.get s.mem (s.x .r7 + 8#8).toNat).setWidth 9
      ie := true } := by
  have a : ∀ (x : Byte) (m n : Nat), x + BitVec.ofNat 8 m + BitVec.ofNat 8 n = x + BitVec.ofNat 8 (m + n) := by
    intro x m n
    apply BitVec.eq_of_toNat_eq
    simp only [BitVec.toNat_add, BitVec.toNat_ofNat]; omega
  have a2 := a (s.x .r7) 1 1
  have a3 := a (s.x .r7) 2 1
  have a4 := a (s.x .r7) 3 1
  have a5 := a (s.x .r7) 4 1
  have a6 := a (s.x .r7) 5 1
  have a7 := a (s.x .r7) 6 1
  have a8 := a (s.x .r7) 7 1
  have a9 := a (s.x .r7) 8 1
  simp only [Nat.reduceAdd] at a2 a3 a4 a5 a6 a7 a8 a9
  simp only [leaveInterrupt, popRegs, pop_eq, bind_ok, State.setX_x, State.setX_mem, State.setFl_x,
    State.setFl_mem, reduceCtorEq, if_true, if_false, a2, a3, a4, a5, a6, a7, a8, a9]
  simp only [State.setX, State.setFl, State.jumpTo, State.setIe, Regs.set]
end Sys2Proof.Machine
end

