-- ==== Sys2Proof/Laws/Exec.lean ====
section
/-!
SUPPORT. What each meaning answers, in closed form over the state's updates, with the memory accesses
resolved: a data address is a byte, so with 256 cells it is always inside memory (20_memory.md R49). One
lemma per instruction, cited in place of its unfolding; every one of them answers a next state.
-/

namespace Sys2Proof.Machine

theorem exec_nop (s : State) : exec .nop s = .next (s.advance 1) := rfl

theorem exec_hlt (s : State) : exec .hlt s = .next ((s.setRun .halted).advance 1) := rfl

theorem exec_ret (s : State) :
    exec .ret s = .next ((s.setX .r7 (s.x .r7 + 1#8)).jumpTo (Memory.get s.mem (s.x .r7).toNat)) := by
  simp only [exec, execRet, pop_eq, bind_ok, endPhase_ok]

theorem exec_iret (s : State) : exec .iret s = endPhase s (leaveInterrupt s) := rfl

theorem exec_pra (a : Reg) (s : State) :
    exec (.pra a) s = .next ((s.emit (.chr (s.x a))).advance 2) := rfl

theorem exec_prn (a : Reg) (s : State) :
    exec (.prn a) s = .next ((s.emit (.num (s.x a))).advance 2) := rfl

theorem exec_int (a : Reg) (s : State) :
    exec (.int a) s = .next ((s.writeX .r6 (raisedValue (s.x .r6) (s.x a))).advance 2) := rfl

theorem exec_pop (a : Reg) (s : State) :
    exec (.pop a) s = .next
      (((s.setX a (Memory.get s.mem (s.x .r7).toNat)).setX .r7
        ((s.setX a (Memory.get s.mem (s.x .r7).toNat)).x .r7 + 1#8)).advance 2) := by
  simp only [exec, execPop, regAddr, memRead_byte, bind_ok, endPhase_ok, State.writeX, incValue,
    narrow_add_one]

theorem exec_push (a : Reg) (s : State) :
    exec (.push a) s = .next
      (((s.setX .r7 (s.x .r7 - 1#8)).setMem
        (Memory.set s.mem (s.x .r7 - 1#8).toNat ((s.setX .r7 (s.x .r7 - 1#8)).x a))).advance 2) := by
  simp only [exec, execPush, regAddr, State.writeX, decValue, narrow_sub_one, State.setX_x_self,
    memWrite_byte, bind_ok, endPhase_ok, BitVec.ofNat_toNat, BitVec.setWidth_eq, State.setX_mem]

theorem exec_not (a : Reg) (s : State) : exec (.not a) s = .next (aluUnary s a notValue) := rfl

theorem exec_inc (a : Reg) (s : State) : exec (.inc a) s = .next (aluUnary s a incValue) := rfl

theorem exec_dec (a : Reg) (s : State) : exec (.dec a) s = .next (aluUnary s a decValue) := rfl

theorem exec_call (a : Reg) (s : State) :
    exec (.call a) s = .next
      (((s.setX .r7 (s.x .r7 - 1#8)).setMem
        (Memory.set s.mem (s.x .r7 - 1#8).toNat (BitVec.ofNat 8 (s.pc.toNat + 2)))).jumpTo
          ((s.setX .r7 (s.x .r7 - 1#8)).x a)) := by
  simp only [exec, execCall, push_eq, bind_ok, endPhase_ok, State.setMem_x]

theorem exec_jmp (a : Reg) (s : State) : exec (.jmp a) s = .next (s.jumpTo (s.x a)) := rfl

theorem exec_jeq (a : Reg) (s : State) :
    exec (.jeq a) s = endPhase s (condJump s (.jeq a) a (flE s.fl)) := rfl

theorem exec_jne (a : Reg) (s : State) :
    exec (.jne a) s = endPhase s (condJump s (.jne a) a (!flE s.fl)) := rfl

theorem exec_jlt (a : Reg) (s : State) :
    exec (.jlt a) s = endPhase s (condJump s (.jlt a) a (flL s.fl)) := rfl

theorem exec_jgt (a : Reg) (s : State) :
    exec (.jgt a) s = endPhase s (condJump s (.jgt a) a (flG s.fl)) := rfl

theorem exec_cmp (a b : Reg) (s : State) :
    exec (.cmp a b) s = .next ((s.setFl (cmpFlags s.fl (s.x a) (s.x b))).advance 3) := rfl

theorem exec_add (a b : Reg) (s : State) :
    exec (.add a b) s = .next (aluBinary s a b addValue) := rfl

theorem exec_sub (a b : Reg) (s : State) :
    exec (.sub a b) s = .next (aluBinary s a b subValue) := rfl

theorem exec_mul (a b : Reg) (s : State) :
    exec (.mul a b) s = .next (aluBinary s a b mulValue) := rfl

theorem exec_div (a b : Reg) (s : State) :
    exec (.div a b) s = endPhase s (aluDivide s (.div a b) a b divValue) := rfl

theorem exec_mod (a b : Reg) (s : State) :
    exec (.mod a b) s = endPhase s (aluDivide s (.mod a b) a b modValue) := rfl

theorem exec_or (a b : Reg) (s : State) :
    exec (.or a b) s = .next (aluBinary s a b orValue) := rfl

theorem exec_xor (a b : Reg) (s : State) :
    exec (.xor a b) s = .next (aluBinary s a b xorValue) := rfl

theorem exec_and (a b : Reg) (s : State) :
    exec (.and a b) s = .next (aluBinary s a b andValue) := rfl

theorem exec_ld (a b : Reg) (s : State) :
    exec (.ld a b) s = .next ((s.setX a (Memory.get s.mem (s.x b).toNat)).advance 3) := by
  simp only [exec, execLd, regAddr, memRead_byte, bind_ok, endPhase_ok]

theorem exec_ldi (a : Reg) (imm : Byte) (s : State) :
    exec (.ldi a imm) s = .next ((s.setX a imm).advance 3) := rfl

theorem exec_st (a b : Reg) (s : State) :
    exec (.st a b) s = .next
      ((s.setMem (Memory.set s.mem (s.x a).toNat (s.x b))).advance 3) := by
  simp only [exec, execSt, regAddr, memWrite_byte, bind_ok, endPhase_ok, BitVec.ofNat_toNat,
    BitVec.setWidth_eq]

/-- The two endings of a conditional jump without a flag violation, and the one with it. -/
theorem condJump_eq (s : State) (i : Instr) (a : Reg) (taken : Bool) :
    condJump s i a taken =
      if flagViolation s.fl then .error (.flagInvariant s.pc i.opcode s.fl)
      else .ok (if taken then s.jumpTo (s.x a) else s.advance 2) := by
  unfold condJump
  split <;> [rfl; (split <;> rfl)]

end Sys2Proof.Machine
end

