-- ==== Sys2Proof/Laws/PerInstr.lean ====
section
/-!
SUPPORT. Per-instruction facts about instructions as syntax. Family OpcodeShape: the fields of the opcode
byte agree with the instruction's operand count and sets-PC flag, and the encoding is as long as its
operand count says (30_encoding.md R60, R61, R65).
-/

namespace Sys2Proof.Laws.OpcodeShape

/-- The opcode's bits 7:6 are the operand count, its bit 5 the sets-PC flag, and the bytes are one opcode
byte and that many operand bytes. -/
def Statement (i : Instr) : Prop :=
  Sys2Proof.operandCount i.opcode = i.operandCount ∧ setsPcBit i.opcode = i.setsPc ∧
    (encode i).length = i.length

end Sys2Proof.Laws.OpcodeShape

open Sys2Proof

theorem Sys2Proof.Laws.OpcodeShape.nop : Sys2Proof.Laws.OpcodeShape.Statement .nop :=
  ⟨by simp [operandCount, Instr.opcode, Instr.operandCount],
    by simp [setsPcBit, Instr.opcode, Instr.setsPc], rfl⟩

theorem Sys2Proof.Laws.OpcodeShape.hlt : Sys2Proof.Laws.OpcodeShape.Statement .hlt :=
  ⟨by simp [operandCount, Instr.opcode, Instr.operandCount],
    by simp [setsPcBit, Instr.opcode, Instr.setsPc], rfl⟩

theorem Sys2Proof.Laws.OpcodeShape.ret : Sys2Proof.Laws.OpcodeShape.Statement .ret :=
  ⟨by simp [operandCount, Instr.opcode, Instr.operandCount],
    by simp [setsPcBit, Instr.opcode, Instr.setsPc], rfl⟩

theorem Sys2Proof.Laws.OpcodeShape.iret : Sys2Proof.Laws.OpcodeShape.Statement .iret :=
  ⟨by simp [operandCount, Instr.opcode, Instr.operandCount],
    by simp [setsPcBit, Instr.opcode, Instr.setsPc], rfl⟩

theorem Sys2Proof.Laws.OpcodeShape.pra (a : Reg) : Sys2Proof.Laws.OpcodeShape.Statement (.pra a) :=
  ⟨by simp [operandCount, Instr.opcode, Instr.operandCount],
    by simp [setsPcBit, Instr.opcode, Instr.setsPc], rfl⟩

theorem Sys2Proof.Laws.OpcodeShape.prn (a : Reg) : Sys2Proof.Laws.OpcodeShape.Statement (.prn a) :=
  ⟨by simp [operandCount, Instr.opcode, Instr.operandCount],
    by simp [setsPcBit, Instr.opcode, Instr.setsPc], rfl⟩

theorem Sys2Proof.Laws.OpcodeShape.int (a : Reg) : Sys2Proof.Laws.OpcodeShape.Statement (.int a) :=
  ⟨by simp [operandCount, Instr.opcode, Instr.operandCount],
    by simp [setsPcBit, Instr.opcode, Instr.setsPc], rfl⟩

theorem Sys2Proof.Laws.OpcodeShape.pop (a : Reg) : Sys2Proof.Laws.OpcodeShape.Statement (.pop a) :=
  ⟨by simp [operandCount, Instr.opcode, Instr.operandCount],
    by simp [setsPcBit, Instr.opcode, Instr.setsPc], rfl⟩

theorem Sys2Proof.Laws.OpcodeShape.push (a : Reg) : Sys2Proof.Laws.OpcodeShape.Statement (.push a) :=
  ⟨by simp [operandCount, Instr.opcode, Instr.operandCount],
    by simp [setsPcBit, Instr.opcode, Instr.setsPc], rfl⟩

theorem Sys2Proof.Laws.OpcodeShape.not (a : Reg) : Sys2Proof.Laws.OpcodeShape.Statement (.not a) :=
  ⟨by simp [operandCount, Instr.opcode, Instr.operandCount],
    by simp [setsPcBit, Instr.opcode, Instr.setsPc], rfl⟩

theorem Sys2Proof.Laws.OpcodeShape.inc (a : Reg) : Sys2Proof.Laws.OpcodeShape.Statement (.inc a) :=
  ⟨by simp [operandCount, Instr.opcode, Instr.operandCount],
    by simp [setsPcBit, Instr.opcode, Instr.setsPc], rfl⟩

theorem Sys2Proof.Laws.OpcodeShape.dec (a : Reg) : Sys2Proof.Laws.OpcodeShape.Statement (.dec a) :=
  ⟨by simp [operandCount, Instr.opcode, Instr.operandCount],
    by simp [setsPcBit, Instr.opcode, Instr.setsPc], rfl⟩

theorem Sys2Proof.Laws.OpcodeShape.call (a : Reg) : Sys2Proof.Laws.OpcodeShape.Statement (.call a) :=
  ⟨by simp [operandCount, Instr.opcode, Instr.operandCount],
    by simp [setsPcBit, Instr.opcode, Instr.setsPc], rfl⟩

theorem Sys2Proof.Laws.OpcodeShape.jmp (a : Reg) : Sys2Proof.Laws.OpcodeShape.Statement (.jmp a) :=
  ⟨by simp [operandCount, Instr.opcode, Instr.operandCount],
    by simp [setsPcBit, Instr.opcode, Instr.setsPc], rfl⟩

theorem Sys2Proof.Laws.OpcodeShape.jeq (a : Reg) : Sys2Proof.Laws.OpcodeShape.Statement (.jeq a) :=
  ⟨by simp [operandCount, Instr.opcode, Instr.operandCount],
    by simp [setsPcBit, Instr.opcode, Instr.setsPc], rfl⟩

theorem Sys2Proof.Laws.OpcodeShape.jne (a : Reg) : Sys2Proof.Laws.OpcodeShape.Statement (.jne a) :=
  ⟨by simp [operandCount, Instr.opcode, Instr.operandCount],
    by simp [setsPcBit, Instr.opcode, Instr.setsPc], rfl⟩

theorem Sys2Proof.Laws.OpcodeShape.jlt (a : Reg) : Sys2Proof.Laws.OpcodeShape.Statement (.jlt a) :=
  ⟨by simp [operandCount, Instr.opcode, Instr.operandCount],
    by simp [setsPcBit, Instr.opcode, Instr.setsPc], rfl⟩

theorem Sys2Proof.Laws.OpcodeShape.jgt (a : Reg) : Sys2Proof.Laws.OpcodeShape.Statement (.jgt a) :=
  ⟨by simp [operandCount, Instr.opcode, Instr.operandCount],
    by simp [setsPcBit, Instr.opcode, Instr.setsPc], rfl⟩

theorem Sys2Proof.Laws.OpcodeShape.cmp (a b : Reg) : Sys2Proof.Laws.OpcodeShape.Statement (.cmp a b) :=
  ⟨by simp [operandCount, Instr.opcode, Instr.operandCount],
    by simp [setsPcBit, Instr.opcode, Instr.setsPc], rfl⟩

theorem Sys2Proof.Laws.OpcodeShape.add (a b : Reg) : Sys2Proof.Laws.OpcodeShape.Statement (.add a b) :=
  ⟨by simp [operandCount, Instr.opcode, Instr.operandCount],
    by simp [setsPcBit, Instr.opcode, Instr.setsPc], rfl⟩

theorem Sys2Proof.Laws.OpcodeShape.sub (a b : Reg) : Sys2Proof.Laws.OpcodeShape.Statement (.sub a b) :=
  ⟨by simp [operandCount, Instr.opcode, Instr.operandCount],
    by simp [setsPcBit, Instr.opcode, Instr.setsPc], rfl⟩

theorem Sys2Proof.Laws.OpcodeShape.mul (a b : Reg) : Sys2Proof.Laws.OpcodeShape.Statement (.mul a b) :=
  ⟨by simp [operandCount, Instr.opcode, Instr.operandCount],
    by simp [setsPcBit, Instr.opcode, Instr.setsPc], rfl⟩

theorem Sys2Proof.Laws.OpcodeShape.div (a b : Reg) : Sys2Proof.Laws.OpcodeShape.Statement (.div a b) :=
  ⟨by simp [operandCount, Instr.opcode, Instr.operandCount],
    by simp [setsPcBit, Instr.opcode, Instr.setsPc], rfl⟩

theorem Sys2Proof.Laws.OpcodeShape.mod (a b : Reg) : Sys2Proof.Laws.OpcodeShape.Statement (.mod a b) :=
  ⟨by simp [operandCount, Instr.opcode, Instr.operandCount],
    by simp [setsPcBit, Instr.opcode, Instr.setsPc], rfl⟩

theorem Sys2Proof.Laws.OpcodeShape.or (a b : Reg) : Sys2Proof.Laws.OpcodeShape.Statement (.or a b) :=
  ⟨by simp [operandCount, Instr.opcode, Instr.operandCount],
    by simp [setsPcBit, Instr.opcode, Instr.setsPc], rfl⟩

theorem Sys2Proof.Laws.OpcodeShape.xor (a b : Reg) : Sys2Proof.Laws.OpcodeShape.Statement (.xor a b) :=
  ⟨by simp [operandCount, Instr.opcode, Instr.operandCount],
    by simp [setsPcBit, Instr.opcode, Instr.setsPc], rfl⟩

theorem Sys2Proof.Laws.OpcodeShape.and (a b : Reg) : Sys2Proof.Laws.OpcodeShape.Statement (.and a b) :=
  ⟨by simp [operandCount, Instr.opcode, Instr.operandCount],
    by simp [setsPcBit, Instr.opcode, Instr.setsPc], rfl⟩

theorem Sys2Proof.Laws.OpcodeShape.ld (a b : Reg) : Sys2Proof.Laws.OpcodeShape.Statement (.ld a b) :=
  ⟨by simp [operandCount, Instr.opcode, Instr.operandCount],
    by simp [setsPcBit, Instr.opcode, Instr.setsPc], rfl⟩

theorem Sys2Proof.Laws.OpcodeShape.ldi (a : Reg) (imm : Byte) : Sys2Proof.Laws.OpcodeShape.Statement (.ldi a imm) :=
  ⟨by simp [operandCount, Instr.opcode, Instr.operandCount],
    by simp [setsPcBit, Instr.opcode, Instr.setsPc], rfl⟩

theorem Sys2Proof.Laws.OpcodeShape.st (a b : Reg) : Sys2Proof.Laws.OpcodeShape.Statement (.st a b) :=
  ⟨by simp [operandCount, Instr.opcode, Instr.operandCount],
    by simp [setsPcBit, Instr.opcode, Instr.setsPc], rfl⟩
end

