-- ==== Sys2Proof/Tests/Slice0.lean ====
section
/-!
SUPPORT. The model's own tests. Expected results are taken from the spec: its encodings (30_encoding.md R66),
its examples and its test vectors (95_test_vectors.md, named V-…). Then one witness for each obligation
that has hypotheses, and for each of its clauses.
-/

namespace Sys2Proof.Tests

open Sys2Proof Sys2Proof.Machine

/-! ## Well-formedness: the checks refuse an ill-formed term -/

theorem test_wf_hlt_last_cell : Instr.fitsAt .hlt 255 = true := by decide
theorem test_wf_hlt_beyond : Instr.fitsAt .hlt 256 = false := by decide
theorem test_wf_prn_cut : Instr.fitsAt (.prn .r0) 255 = false := by decide
theorem test_wf_ldi_cut : Instr.fitsAt (.ldi .r0 1) 254 = false := by decide
theorem test_wf_image_short : imageWf [0x01] = false := by decide
theorem test_wf_image_full : imageWf (List.replicate 256 0x00) = true :=
  decide_eq_true List.length_replicate

/-! ## Decoding: every constructor's word, written out from R66 bit by bit -/

theorem test_decode_f0 :
    decode [0b00000000] = .ok (.nop, []) ∧ decode [0b00000001] = .ok (.hlt, []) ∧
    decode [0b00101001] = .ok (.ret, []) ∧ decode [0b00101011] = .ok (.iret, []) := by decide

theorem test_decode_f1 :
    decode [0b01000010, 0b00000001] = .ok (.pra .r1, []) ∧
    decode [0b01000011, 0b00000010] = .ok (.prn .r2, []) ∧
    decode [0b01001010, 0b00000011] = .ok (.int .r3, []) ∧
    decode [0b01001100, 0b00000100] = .ok (.pop .r4, []) ∧
    decode [0b01001101, 0b00000101] = .ok (.push .r5, []) ∧
    decode [0b01010000, 0b00000110] = .ok (.not .r6, []) ∧
    decode [0b01011000, 0b00000111] = .ok (.inc .r7, []) ∧
    decode [0b01011001, 0b00000000] = .ok (.dec .r0, []) := by decide

theorem test_decode_f1_sets_pc :
    decode [0b01101000, 0b00000001] = .ok (.call .r1, []) ∧
    decode [0b01110000, 0b00000010] = .ok (.jmp .r2, []) ∧
    decode [0b01110001, 0b00000011] = .ok (.jeq .r3, []) ∧
    decode [0b01110010, 0b00000100] = .ok (.jne .r4, []) ∧
    decode [0b01110011, 0b00000101] = .ok (.jlt .r5, []) ∧
    decode [0b01110100, 0b00000110] = .ok (.jgt .r6, []) := by decide

theorem test_decode_f2_arith :
    decode [0b10000000, 0b00000001, 0b00000010] = .ok (.cmp .r1 .r2, []) ∧
    decode [0b10001000, 0b00000011, 0b00000100] = .ok (.add .r3 .r4, []) ∧
    decode [0b10001001, 0b00000101, 0b00000110] = .ok (.sub .r5 .r6, []) ∧
    decode [0b10001010, 0b00000111, 0b00000000] = .ok (.mul .r7 .r0, []) ∧
    decode [0b10001011, 0b00000000, 0b00000001] = .ok (.div .r0 .r1, []) ∧
    decode [0b10001100, 0b00000010, 0b00000011] = .ok (.mod .r2 .r3, []) := by decide

theorem test_decode_f2_rest :
    decode [0b10010001, 0b00000001, 0b00000010] = .ok (.or .r1 .r2, []) ∧
    decode [0b10010010, 0b00000011, 0b00000100] = .ok (.xor .r3 .r4, []) ∧
    decode [0b10010011, 0b00000101, 0b00000110] = .ok (.and .r5 .r6, []) ∧
    decode [0b10011000, 0b00000001, 0b00000010] = .ok (.ld .r1 .r2, []) ∧
    decode [0b10011001, 0b00000011, 0b11111111] = .ok (.ldi .r3 255, []) ∧
    decode [0b10011010, 0b00000000, 0b00000001] = .ok (.st .r0 .r1, []) := by decide

/-- V-DEC-1, V-DEC-2, V-DEC-8, V-DEC-10, V-DEC-3, V-DEC-4, V-DEC-5, V-DEC-6: refusals by name. -/
theorem test_decode_refuses :
    decode [0x02] = .error (.unknownOpcode 0x02) ∧ decode [0x44, 0x00] = .error (.unknownOpcode 0x44) ∧
    decode [0xA8, 0x00, 0x01] = .error (.unknownOpcode 0xA8) ∧
    decode [0x60, 0x00] = .error (.unknownOpcode 0x60) ∧ decode [0xC0] = .error (.countThree 0xC0) ∧
    decode [0x43, 0x08] = .error (.reservedOperand 0x43 0x08) ∧
    decode [0x88, 0x00, 0x80] = .error (.reservedOperand 0x88 0x80) ∧
    decode [0x99, 0x0F, 0x01] = .error (.reservedOperand 0x99 0x0F) ∧
    decode [0x99, 0x00] = .error .truncated := by decide

/-- R67: 226 of the 256 opcode bytes are unknown. -/
theorem test_decode_unknown_count :
    ((List.range 256).filter fun n => (lookupShape (BitVec.ofNat 8 n) opcodeMap).isNone).length = 226 := by
  decide +kernel

/-- The numbering of spec/opcode_table.json: PRA's match is 4200, LDI's 990000 with the immediate low. -/
theorem test_table_word :
    decodeTableWord 8 0x2B = some .iret ∧ decodeTableWord 16 0x4203 = some (.pra .r3) ∧
    decodeTableWord 24 0x9901FE = some (.ldi .r1 0xFE) ∧ decodeTableWord 16 0x4208 = none := by decide

/-! ## One step: the vectors of 95_test_vectors.md -/

/-- A vector's start: the reset state with the pc and the bytes at it. -/
def vec (pc : PcWord) (bytes : List Byte) : State :=
  { State.reset with pc := pc, mem := storeBytes [] pc.toNat bytes }

/-- A vector's memory cell. -/
def cell (s : State) (a : Nat) (b : Byte) : State := s.setMem (Memory.set s.mem a b)

/-- What one step trigger leaves, seen through `f`. -/
def see {α : Type} (f : State → α) (s : State) : Option α :=
  match step s with
  | .next t => some (f t)
  | .fault _ => none
  | .refused _ => none

/-- V-CYC-1. -/
theorem test_nop : see (fun t => (t.pc, t.run)) (vec 0x10 [0x00]) = some (0x11, .running) := by decide

/-- V-CYC-2. -/
theorem test_hlt : see (fun t => (t.pc, t.run)) (vec 0x05 [0x01]) = some (0x06, .halted) := by decide

/-- V-CYC-3: in the last cell. -/
theorem test_hlt_last : see (fun t => (t.pc, t.run)) (vec 0xFF [0x01]) = some (0x100, .halted) := by decide

/-- V-CYC-5, second step. -/
theorem test_fetch_beyond :
    see (fun t => (t.pc, t.run)) (vec 0x100 []) =
      some (0x100, .faulted (.outOfBounds 0x100 0x100)) := by decide

/-- V-CYC-6. -/
theorem test_halted_frozen :
    see (fun t => (t.pc, t.run)) ((vec 0x06 [0x00]).setRun .halted) = some (0x06, .halted) := by decide

/-- V-DEC-3: no operand fetch for count 3. -/
theorem test_count_three :
    see (fun t => (t.pc, t.run)) (vec 0xFF [0xC0]) =
      some (0xFF, .faulted (.unknownInstruction 0xFF 0xC0)) := by decide

/-- V-FLT-6: operand B beyond memory. -/
theorem test_operand_beyond :
    see (fun t => t.run) (vec 0xFE [0x99, 0x00]) = some (.faulted (.outOfBounds 0xFE 0x100)) := by decide

/-- V-FLT-7: OutOfBounds before the unknown opcode. -/
theorem test_fault_priority :
    see (fun t => t.run) (vec 0xFE [0xAA, 0x00]) = some (.faulted (.outOfBounds 0xFE 0x100)) := by decide

/-- V-FLT-8: the decode fault before DivideByZero. -/
theorem test_reserved_first :
    see (fun t => t.run) (vec 0x10 [0x8B, 0x08, 0x01]) =
      some (.faulted (.unknownInstruction 0x10 0x8B)) := by decide

/-- V-LS-1, V-LS-2. -/
theorem test_ldi : see (fun t => (t.x .r0, t.pc)) (vec 0x10 [0x99, 0x00, 0x08]) = some (0x08, 0x13) := by
  decide

theorem test_ldi_sp : see (fun t => t.x .r7) (vec 0x10 [0x99, 0x07, 0x80]) = some 0x80 := by decide

/-- V-LS-5: a = b. -/
theorem test_ld_same :
    see (fun t => (t.x .r1, t.pc)) (cell ((vec 0x10 [0x98, 0x01, 0x01]).setX .r1 0x20) 0x20 0x7F) =
      some (0x7F, 0x13) := by decide

/-- V-LS-6: its own opcode byte. -/
theorem test_ld_own :
    see (fun t => t.x .r0) ((vec 0x10 [0x98, 0x00, 0x01]).setX .r1 0x10) = some 0x98 := by decide

/-- V-LS-9: the address register is operand A. -/
theorem test_st :
    see (fun t => (Memory.get t.mem 0x80, t.pc))
      (((vec 0x10 [0x9A, 0x00, 0x01]).setX .r0 0x80).setX .r1 0x2A) = some (0x2A, 0x13) := by decide

/-- V-LS-11: into a vector. -/
theorem test_st_vector :
    see (fun t => Memory.get t.mem 0xF8)
      (((vec 0x10 [0x9A, 0x00, 0x01]).setX .r0 0xF8).setX .r1 0x40) = some 0x40 := by decide

/-- V-STK-2: SP wraps. -/
theorem test_push_wrap :
    see (fun t => (t.x .r7, Memory.get t.mem 0xFF, t.pc))
      (((vec 0x10 [0x4D, 0x01]).setX .r1 0x2A).setX .r7 0x00) = some (0xFF, 0x2A, 0x12) := by decide

/-- V-STK-3: PUSH R7. -/
theorem test_push_sp :
    see (fun t => (t.x .r7, Memory.get t.mem 0xF3)) (vec 0x10 [0x4D, 0x07]) = some (0xF3, 0xF3) := by
  decide

/-- V-STK-5: SP wraps. -/
theorem test_pop_wrap :
    see (fun t => (t.x .r2, t.x .r7, t.pc)) (cell ((vec 0x10 [0x4C, 0x02]).setX .r7 0xFF) 0xFF 0x77) =
      some (0x77, 0x00, 0x12) := by decide

/-- V-STK-6: POP R7. -/
theorem test_pop_sp :
    see (fun t => t.x .r7) (cell ((vec 0x10 [0x4C, 0x07]).setX .r7 0xF3) 0xF3 0x10) = some 0x11 := by
  decide

/-- V-CTL-2: CALL R7. -/
theorem test_call_sp :
    see (fun t => (t.x .r7, t.pc, Memory.get t.mem 0xF3)) (vec 0x10 [0x68, 0x07]) =
      some (0xF3, 0xF3, 0x12) := by decide

/-- V-CTL-3: the return address modulo 256. -/
theorem test_call_edge :
    see (fun t => (t.x .r7, t.pc, Memory.get t.mem 0xF3))
      (cell ((vec 0xFE [0x68, 0x01]).setX .r1 0x20) 0xF3 0xEE) = some (0xF3, 0x20, 0x00) := by decide

/-- V-CTL-4. -/
theorem test_ret :
    see (fun t => (t.x .r7, t.pc)) (cell ((vec 0x20 [0x29]).setX .r7 0xF3) 0xF3 0x08) =
      some (0xF4, 0x08) := by decide

/-- V-CTL-5: at the reset SP. -/
theorem test_ret_reset_sp :
    see (fun t => (t.x .r7, t.pc)) (cell (vec 0x10 [0x29]) 0xF4 0x33) = some (0xF5, 0x33) := by decide

/-- V-CTL-8. -/
theorem test_jmp : see (fun t => t.pc) ((vec 0x10 [0x70, 0x02]).setX .r2 0xFF) = some 0xFF := by decide

/-- V-FLT-10: two flags do not matter to JMP. -/
theorem test_jmp_flags :
    see (fun t => (t.pc, t.run)) (((vec 0x10 [0x70, 0x02]).setX .r2 0x30).setFl 0b011) =
      some (0x30, .running) := by decide

/-- A conditional jump's pc with R2 = 0x30 and the given flags. -/
def jumpPc (op fl : Byte) : Option PcWord :=
  see (fun t => t.pc) (((vec 0x10 [op, 0x02]).setX .r2 0x30).setFl fl)

/-- The conditional-jump table of 95_test_vectors.md 2.5, the rows without a fault: 0x30 taken, 0x12 not. -/
theorem test_jeq : [0x00, 0x01, 0x02, 0x04, 0x08, 0x09, 0xFA].map (jumpPc 0x71) =
    [some 0x12, some 0x30, some 0x12, some 0x12, some 0x12, some 0x30, some 0x12] := by decide

theorem test_jne : [0x00, 0x01, 0x02, 0x04, 0x08, 0x09, 0xFA].map (jumpPc 0x72) =
    [some 0x30, some 0x12, some 0x30, some 0x30, some 0x30, some 0x12, some 0x30] := by decide

theorem test_jgt : [0x00, 0x01, 0x02, 0x04, 0x08, 0x09, 0xFA].map (jumpPc 0x74) =
    [some 0x12, some 0x12, some 0x30, some 0x12, some 0x12, some 0x12, some 0x30] := by decide

theorem test_jlt : [0x00, 0x01, 0x02, 0x04, 0x08, 0x09, 0xFA].map (jumpPc 0x73) =
    [some 0x12, some 0x12, some 0x12, some 0x30, some 0x12, some 0x12, some 0x12] := by decide

/-- V-FLT-9, and the last row of the table with JLT. -/
theorem test_flag_invariant :
    see (fun t => (t.pc, t.run)) (((vec 0x10 [0x71, 0x02]).setX .r2 0x30).setFl 0b011) =
      some (0x10, .faulted (.flagInvariant 0x10 0x71 0b011)) := by decide

theorem test_flag_invariant_upper :
    see (fun t => (t.pc, t.run)) (((vec 0x10 [0x73, 0x02]).setX .r2 0x30).setFl 0xFB) =
      some (0x10, .faulted (.flagInvariant 0x10 0x73 0xFB)) := by decide

/-- V-INT-I3, V-INT-I5, V-INT-I6. -/
theorem test_int :
    see (fun t => (t.x .r6, t.pc)) (((vec 0x10 [0x4A, 0x00]).setX .r0 7).setX .r6 0x01) =
      some (0x81, 0x12) := by decide

theorem test_int_beyond :
    see (fun t => (t.x .r6, t.pc)) (((vec 0x10 [0x4A, 0x00]).setX .r0 0xFF).setX .r6 0x10) =
      some (0x10, 0x12) := by decide

/-- V-INT-I9. -/
theorem test_iret_reset_sp :
    see (fun t => (t.x .r0, t.x .r5, t.x .r6, t.x .r7, t.pc, t.fl))
      { vec 0x10 [0x2B] with
        mem := (0x10, 0x2B) :: storeBytes [] 0xF4 [1, 2, 3, 4, 5, 6, 7, 0x84, 0x40] } =
      some (0x07, 0x02, 0x01, 0xFD, 0x40, 0x84) := by decide

/-- V-INT-I10: all 8 bits of FL; IE set. -/
theorem test_iret_flags :
    see (fun t => (t.x .r7, t.pc, t.fl, t.ie))
      ((cell (cell (vec 0x10 [0x2B]) 0xF2 0xFB) 0xF3 0x20).setX .r7 0xEB |>.setIe false) =
      some (0xF4, 0x20, 0xFB, true) := by decide

/-- V-OUT-4, V-OUT-7. -/
theorem test_prn : see (fun t => (t.out, t.pc)) (vec 0x10 [0x43, 0x07]) = some ([.num 244], 0x12) := by
  decide

theorem test_pra :
    see (fun t => (t.out, t.pc)) ((vec 0x10 [0x42, 0x01]).setX .r1 0xC8) = some ([.chr 200], 0x12) := by
  decide

/-- A two-operand ALU instruction on R0 = A, R1 = B: R0 after the step. -/
def alu2 (op A B : Byte) : Option Byte :=
  see (fun t => t.x .r0) (((vec 0x10 [op, 0x00, 0x01]).setX .r0 A).setX .r1 B)

/-- A one-operand ALU instruction on R0 = A: R0 after the step. -/
def alu1 (op A : Byte) : Option Byte := see (fun t => t.x .r0) ((vec 0x10 [op, 0x00]).setX .r0 A)

/-! The V-ALU table of 95_test_vectors.md 2.8, two or three rows each. -/

theorem test_add : [alu2 0x88 255 1, alu2 0x88 200 100, alu2 0x88 255 255] = [some 0, some 44, some 254] := by
  decide

theorem test_sub : [alu2 0x89 0 1, alu2 0x89 5 10, alu2 0x89 7 200] = [some 255, some 251, some 63] := by
  decide

theorem test_mul : [alu2 0x8A 255 255, alu2 0x8A 200 7, alu2 0x8A 16 16] = [some 1, some 120, some 0] := by
  decide

theorem test_div : [alu2 0x8B 200 7, alu2 0x8B 1 255, alu2 0x8B 255 255] = [some 28, some 0, some 1] := by
  decide

theorem test_mod : [alu2 0x8C 200 7, alu2 0x8C 7 200, alu2 0x8C 204 170] = [some 4, some 7, some 34] := by
  decide

/-- V-FLT-1, V-FLT-2. -/
theorem test_div_zero :
    see (fun t => (t.x .r0, t.pc, t.run)) ((vec 0x10 [0x8B, 0x00, 0x01]).setX .r0 7) =
      some (7, 0x10, .faulted (.divideByZero 0x10 0x8B)) := by decide

theorem test_mod_zero :
    see (fun t => (t.x .r0, t.pc, t.run)) ((vec 0x10 [0x8C, 0x00, 0x01]).setX .r0 7) =
      some (7, 0x10, .faulted (.divideByZero 0x10 0x8C)) := by decide

theorem test_and : [alu2 0x93 200 100, alu2 0x93 204 170] = [some 64, some 136] := by decide

theorem test_or : [alu2 0x91 200 100, alu2 0x91 204 170] = [some 236, some 238] := by decide

theorem test_xor : [alu2 0x92 200 100, alu2 0x92 204 170] = [some 172, some 102] := by decide

theorem test_not : [alu1 0x50 0, alu1 0x50 15, alu1 0x50 255] = [some 255, some 240, some 0] := by decide

theorem test_inc : [alu1 0x58 0, alu1 0x58 127, alu1 0x58 255] = [some 1, some 128, some 0] := by decide

theorem test_dec : [alu1 0x59 0, alu1 0x59 128, alu1 0x59 255] = [some 255, some 127, some 254] := by decide

/-- V-ALU-10: unsigned. -/
theorem test_cmp :
    see (fun t => (t.fl, t.pc)) (((vec 0x10 [0x80, 0x00, 0x01]).setX .r0 0x80).setX .r1 0x7F) =
      some (0b010, 0x13) := by decide

/-- V-ALU-11: the other two flags cleared, FL[7:3] kept. -/
theorem test_cmp_keeps_upper :
    see (fun t => t.fl)
      ((((vec 0x10 [0x80, 0x00, 0x01]).setX .r0 1).setX .r1 2).setFl 0b11111011) = some 0b11111100 := by
  decide

/-- V-ALU-12: ADD does not touch FL. -/
theorem test_add_flags :
    see (fun t => (t.x .r0, t.fl))
      ((((vec 0x10 [0x88, 0x00, 0x01]).setX .r0 0xFF).setX .r1 1).setFl 0b010) = some (0, 0b010) := by decide

/-! ## Interrupts -/

/-- V-INT-2's start: line 0 pending and unmasked, INC R1 at the pc, INC R2 at the handler 0x40. -/
def intStart : State :=
  { vec 0x10 [] with
    regs := { r0 := 0xA0, r1 := 0xA1, r2 := 0xA2, r3 := 0xA3, r4 := 0xA4, r5 := 1, r6 := 1, r7 := 0xF4 }
    fl := 0b010
    mem := [(0x10, 0x58), (0x11, 0x01), (0x40, 0x58), (0x41, 0x02), (0xF8, 0x40)] }

/-- V-INT-2: the dispatch, then INC R2 in the same step. -/
theorem test_dispatch :
    see (fun t => (t.x .r1, t.x .r2, t.x .r6, t.x .r7, t.pc, t.ie)) intStart =
      some (0xA1, 0xA3, 0x00, 0xEB, 0x42, false) := by decide

/-- V-INT-2: the frame, from 0xEB up. -/
theorem test_dispatch_frame :
    see (fun t => (List.range 9).map fun k => Memory.get t.mem (0xEB + k)) intStart =
      some [0x00, 0x01, 0xA4, 0xA3, 0xA2, 0xA1, 0xA0, 0x02, 0x10] := by decide

/-- V-INT-1: IE = 0, not taken. -/
theorem test_dispatch_disabled :
    see (fun t => (t.x .r1, t.x .r6, t.pc)) (intStart.setIe false) = some (0xA2, 0x01, 0x12) := by decide

/-- V-INT-3: the lowest line wins; V-INT-4: a masked line is held. -/
theorem test_lowest_line :
    see (fun t => (t.x .r6, t.pc, Memory.get t.mem 0xEB))
      { vec 0x10 [0x58, 0x01] with
        regs := { State.reset.regs with r5 := 0xFF, r6 := 0x06 }
        mem := [(0x10, 0x58), (0x11, 0x01), (0xF9, 0x50), (0xFA, 0x60)] } =
      some (0x04, 0x51, 0x04) := by decide

theorem test_masked_line :
    see (fun t => (t.x .r1, t.x .r6, t.pc)) (intStart.setX .r5 0) = some (0xA2, 0x01, 0x12) := by decide

/-- V-INT-8: the frame wraps onto the vector, which is then read; the dispatch stays done when the
handler's first instruction faults. -/
theorem test_dispatch_wraps :
    see (fun t => (t.x .r6, t.x .r7, t.pc, t.ie, t.run))
      { vec 0x10 [0x58, 0x01] with
        regs := { State.reset.regs with r0 := 0xA0, r5 := 1, r6 := 1, r7 := 1 }
        mem := [(0x10, 0x58), (0x11, 0x01), (0xF8, 0x40)] } =
      some (0x00, 0xF8, 0x00, false, .faulted (.unknownInstruction 0x00 0x10)) := by decide

/-- V-RSE-2, V-RSE-3, V-RSE-5. -/
theorem test_raise :
    ((State.reset.setX .r6 1).raiseLine 0).x .r6 = 0x01 ∧
    ((State.reset.setX .r6 1).raiseLine 7).x .r6 = 0x81 ∧
    ((State.reset.setRun .halted).raiseLine 0).x .r6 = 0x00 := by decide

/-! ## Witnesses: states and operands that meet the hypotheses of each obligation -/

/-- ADD R0, R1 in the last three cells. -/
def addEdge : State := vec 253 [0x88, 0x00, 0x01]

theorem witness_DecodedBytesAreTheEncoding : decode [0x88, 0x00, 0x01, 0x29] = .ok (.add .r0 .r1, [0x29]) := by
  decide

theorem witness_ResetLeavesTheStatedValues :
    imageWf (List.replicate 256 0x01) = true ∧ (List.replicate 256 (0x01 : Byte)).length = 256 ∧
    ∃ s, s = State.resetWith (List.replicate 256 0x01) ∨ s = State.reset := ⟨decide_eq_true List.length_replicate, List.length_replicate, _, .inl rfl⟩

theorem witness_RaiseSetsOnePendingBit :
    State.reset.run = .running ∧ (State.reset.setRun .halted).run ≠ .running := by decide

theorem witness_TerminalStatesAreFrozen :
    (State.reset.setRun .halted).run ≠ .running ∧
    (State.reset.takeFault (.outOfBounds 256 256)).run ≠ .running := by decide

theorem witness_PlacedWordIsTheNextInstruction :
    decodeTableWord 24 0x880001 = some (.add .r0 .r1) ∧
    (Instr.add .r0 .r1).fitsAt (vec 253 []).pc.toNat = true := by decide

theorem witness_StepRunsDecodedInstruction :
    addEdge.run = .running ∧ addEdge.Quiet ∧ BytesAt addEdge addEdge.pc.toNat [0x88, 0x00, 0x01] ∧
    addEdge.pc.toNat + ([0x88, 0x00, 0x01] : List Byte).length ≤ 256 ∧
    decode [0x88, 0x00, 0x01] = .ok (.add .r0 .r1, []) := by
  refine ⟨rfl, .inr (by decide), ?_, by decide, by decide⟩
  unfold BytesAt
  decide

theorem witness_quiet_disabled : (intStart.setIe false).Quiet ∧ (intStart.setIe false).ie = false :=
  ⟨.inl rfl, rfl⟩

theorem witness_takes_lowest : intStart.TakesLine 0 := by
  unfold State.TakesLine
  decide

/-- Lines 0 and 7 pending, only line 7 unmasked (V-INT-5): the highest line is taken. -/
theorem witness_takes_highest :
    ({ vec 0x10 [] with regs := { State.reset.regs with r5 := 0x80, r6 := 0x81 } } : State).TakesLine 7 := by
  unfold State.TakesLine
  decide

/-- What the interrupt phase leaves of `intStart`. -/
def intEntered : State :=
  match interruptPhase intStart with
  | .ok t => t
  | .error _ => intStart

theorem witness_interruptPhase : interruptPhase intStart = .ok intEntered := by decide

theorem witness_DispatchingStepRunsHandlerInstruction :
    intStart.run = .running ∧ intStart.TakesLine 0 ∧ interruptPhase intStart = .ok intEntered ∧
    BytesAt intEntered intEntered.pc.toNat [0x58, 0x02] ∧
    intEntered.pc.toNat + ([0x58, 0x02] : List Byte).length ≤ 256 ∧
    decode [0x58, 0x02] = .ok (.inc .r2, []) := by
  refine ⟨rfl, witness_takes_lowest, witness_interruptPhase, ?_, by decide, by decide⟩
  unfold BytesAt
  decide

/-- Opcode 0xC0 in the last cell, and 0x44 with its operand in the last cell. -/
theorem witness_UnknownOpcodeFaults :
    (vec 255 [0xC0]).run = .running ∧ (vec 255 [0xC0]).Quiet ∧ (vec 255 [0xC0]).pc.toNat < 256 ∧
    Memory.get (vec 255 [0xC0]).mem 255 = 0xC0 ∧ operandCount 0xC0 = 3 :=
  ⟨rfl, .inr (by decide), by decide, by decide, by decide⟩

theorem witness_UnknownOpcodeFaults_fetched :
    (vec 254 [0x44]).run = .running ∧ (vec 254 [0x44]).Quiet ∧ (vec 254 [0x44]).pc.toNat < 256 ∧
    Memory.get (vec 254 [0x44]).mem 254 = 0x44 ∧ (∀ i : Instr, i.opcode ≠ 0x44) ∧
    (vec 254 [0x44]).pc.toNat + operandCount 0x44 < 256 := by
  refine ⟨rfl, .inr (by decide), by decide, by decide, ?_, by decide⟩
  intro i
  cases i <;> simp [Instr.opcode]

/-- Operand A = 8, then operand B = 8. -/
theorem witness_ReservedOperandFaults :
    let s := vec 254 [0x43, 0x08]
    s.run = .running ∧ s.Quiet ∧ (Instr.prn .r0).fitsAt s.pc.toNat = true ∧
    Memory.get s.mem s.pc.toNat = (Instr.prn .r0).opcode ∧ Memory.get s.mem (s.pc.toNat + 1) = 8 ∧
    Memory.get s.mem (s.pc.toNat + 2) = 0 ∧ 1 ≤ (Instr.prn .r0).operandCount ∧ 7 < (8 : Byte).toNat :=
  ⟨rfl, .inr (by decide), by decide, by decide, by decide, by decide, by decide, by decide⟩

theorem witness_ReservedOperandFaults_b :
    let s := vec 253 [0x88, 0x00, 0x08]
    s.run = .running ∧ s.Quiet ∧ (Instr.add .r0 .r0).fitsAt s.pc.toNat = true ∧
    Memory.get s.mem s.pc.toNat = (Instr.add .r0 .r0).opcode ∧ Memory.get s.mem (s.pc.toNat + 1) = 0 ∧
    Memory.get s.mem (s.pc.toNat + 2) = 8 ∧ (Instr.add .r0 .r0).operandCount = 2 ∧
    (Instr.add .r0 .r0).opcode ≠ 0x99 ∧ 7 < (8 : Byte).toNat :=
  ⟨rfl, .inr (by decide), by decide, by decide, by decide, by decide, by decide, by decide, by decide⟩

/-- The pc at 256; then count 1 at 255, count 2 at 254 and at 255. -/
theorem witness_FetchBeyondMemoryFaults :
    (vec 256 []).run = .running ∧ (vec 256 []).Quiet ∧ 256 ≤ (vec 256 []).pc.toNat :=
  ⟨rfl, .inr (by decide), by decide⟩

theorem witness_FetchBeyondMemoryFaults_operands :
    ∀ c : State × Nat, c ∈ [(vec 255 [0x43], 1), (vec 254 [0x99], 2), (vec 255 [0x99], 2)] →
      c.1.run = .running ∧ (c.1.ie = false ∨ c.1.x .r6 &&& c.1.x .r5 = 0) ∧ c.2 ≤ 2 ∧
        operandCount (Memory.get c.1.mem c.1.pc.toNat) = c.2 ∧ c.1.pc.toNat < 256 ∧
        256 ≤ c.1.pc.toNat + c.2 := by decide

theorem witness_FaultsArePrecise :
    (vec 256 []).run = .running ∧ step (vec 256 []) = .next ((vec 256 []).takeFault (.outOfBounds 256 256)) ∧
    ((vec 256 []).takeFault (.outOfBounds 256 256)).run = .faulted (.outOfBounds 256 256) :=
  ⟨rfl, rfl, rfl⟩

/-- HLT; a zero divisor; two flags set. -/
theorem witness_RunChangesOnlyBy :
    (∃ t, exec .hlt State.reset = .next t ∧ t.run ≠ State.reset.run) ∧
    (∃ t, exec (.div .r0 .r1) State.reset = .next t ∧ t.run ≠ State.reset.run) ∧
    ∃ t, exec (.jeq .r0) (State.reset.setFl 3) = .next t ∧ t.run ≠ (State.reset.setFl 3).run :=
  ⟨⟨_, rfl, by decide⟩, ⟨_, rfl, by decide⟩, ⟨_, rfl, by decide⟩⟩

theorem witness_StepKeepsInvariant :
    State.reset.Inv ∧ ∃ t, step State.reset = .next t :=
  ⟨⟨by decide, by decide, fun f h => by cases h⟩, _, rfl⟩

theorem witness_ReachableStatesKeepInvariant : ∃ t, hostMove .trigger State.reset = .next t ∧ Reachable t :=
  ⟨_, rfl, .move _ _ .trigger .start rfl⟩

theorem witness_FlagsWrittenOnlyByCmpAndIret :
    (∃ t, exec (.st .r0 .r1) State.reset = .next t) ∧ Instr.st .r0 .r1 ≠ .iret ∧
    (∀ a b, Instr.st .r0 .r1 ≠ .cmp a b) ∧ (∃ t, exec (.cmp .r0 .r1) State.reset = .next t) ∧
    interruptPhase intStart = .ok intEntered :=
  ⟨⟨_, rfl⟩, by decide, fun _ _ => by simp, ⟨_, rfl⟩, witness_interruptPhase⟩

theorem witness_InterruptEnableWrittenOnlyTwice :
    (∃ t, exec .iret State.reset = .next t) ∧ (∃ t, exec .nop State.reset = .next t) ∧
    (interruptPhase intStart = .ok intEntered ∧ intStart.TakesLine 0) ∧
    interruptPhase State.reset = .ok State.reset ∧ State.reset.Quiet :=
  ⟨⟨_, rfl⟩, ⟨_, rfl⟩, ⟨witness_interruptPhase, witness_takes_lowest⟩, by decide, .inr (by decide)⟩

theorem witness_RegistersWrittenAsTheTableSays :
    (∃ t, exec (.pop .r2) State.reset = .next t) ∧ Reg.r3 ∉ writtenRegs (.pop .r2) := ⟨⟨_, rfl⟩, by decide⟩

theorem witness_MemoryWrittenAsTheTableSays :
    (∃ t, exec (.push .r2) State.reset = .next t) ∧ 0xF4 ∉ writtenCells (.push .r2) State.reset ∧
    writtenCells (.push .r2) State.reset = [0xF3] := ⟨⟨_, rfl⟩, by decide, by decide⟩

theorem witness_OutputIsAppendOnly :
    (∃ t, step (vec 0 [0x43, 0x00]) = .next t) ∧ (∃ t, exec (.st .r0 .r1) State.reset = .next t) ∧
    ∀ a, Instr.st .r0 .r1 ≠ .prn a ∧ Instr.st .r0 .r1 ≠ .pra a :=
  ⟨⟨_, rfl⟩, ⟨_, rfl⟩, fun _ => by simp⟩

/-- The advance at the last place an ADD fits, and a fault of DIV. -/
theorem witness_AutoAdvanceByLength :
    (∃ t, exec (.add .r0 .r1) addEdge = .next t) ∧ (Instr.add .r0 .r1).setsPc = false ∧
    (Instr.add .r0 .r1).fitsAt addEdge.pc.toNat = true := ⟨⟨_, rfl⟩, rfl, by decide⟩

theorem witness_MemoryPrimitives : 256 ≤ 256 ∧ 255 < 256 ∧ (254 : Nat) ≠ 255 := by decide

/-- V-LS-12: HLT stored at the next pc. -/
theorem witness_StoredInstructionRunsNext :
    let s := ((vec 0x10 [0x9A, 0x00, 0x01]).setX .r0 0x13).setX .r1 0x01
    s.run = .running ∧ s.Quiet ∧ encode .hlt = [s.x .r1] ∧
      ∃ t, exec (.st .r0 .r1) s = .next t ∧ t.pc.toNat = (s.x .r0).toNat :=
  ⟨rfl, .inr (by decide), by decide, _, rfl, by decide⟩

theorem witness_PopResult : (Reg.r2 ≠ .r7) ∧ (Reg.r7 = .r7) := by decide

theorem witness_PushPopRoundTrip :
    ∃ t u v, exec (.push .r1) State.reset = .next t ∧ exec (.pop .r1) t = .next u ∧
      exec (.pop .r2) t = .next v ∧ Reg.r1 ≠ .r7 ∧ Reg.r2 ≠ .r7 :=
  ⟨_, _, _, rfl, rfl, rfl, by decide, by decide⟩

theorem witness_CallReturns :
    ∃ t v, exec (.call .r1) State.reset = .next t ∧ t.x .r7 = t.x .r7 ∧ exec .ret t = .next v :=
  ⟨_, _, rfl, rfl, rfl⟩

/-- No flag, each flag alone, and an upper bit beside one; each jump taken and not taken. -/
theorem witness_ConditionalJumpResult :
    (∃ s : State, lowFlagCount s.fl ≤ 1 ∧ true = s.fl.getLsbD 0) ∧
    (∃ s : State, lowFlagCount s.fl ≤ 1 ∧ false = s.fl.getLsbD 0 ∧ true = !s.fl.getLsbD 0) ∧
    (∃ s : State, lowFlagCount s.fl ≤ 1 ∧ true = s.fl.getLsbD 1) ∧
    ∃ s : State, lowFlagCount s.fl ≤ 1 ∧ true = s.fl.getLsbD 2 ∧ false = s.fl.getLsbD 1 :=
  ⟨⟨State.reset.setFl 0b001, by decide⟩, ⟨State.reset.setFl 0b000, by decide⟩,
    ⟨State.reset.setFl 0b11111010, by decide⟩, ⟨State.reset.setFl 0b100, by decide⟩⟩

/-- Each pair of flags, and all three. -/
theorem witness_ConditionalJumpResult_violation :
    1 < lowFlagCount (State.reset.setFl 0b011).fl ∧ 1 < lowFlagCount (State.reset.setFl 0b101).fl ∧
    1 < lowFlagCount (State.reset.setFl 0b110).fl ∧ 1 < lowFlagCount (State.reset.setFl 0b111).fl := by
  decide

/-- A divisor of 1 and a divisor of 0. -/
theorem witness_DivModResult :
    (State.reset.setX .r1 1).x .r1 ≠ 0 ∧ State.reset.x .r1 = 0 := by decide

theorem witness_LowestEnabledLineIsTaken : State.reset.Quiet ∧ ¬ intStart.Quiet := by
  unfold State.Quiet
  decide

theorem witness_InterruptEntry : intStart.TakesLine 0 := witness_takes_lowest

/-- A handler that has changed R0 and R6 and left the stack alone. -/
theorem witness_InterruptThenIretRestores :
    intStart.TakesLine 0 ∧ interruptPhase intStart = .ok intEntered ∧
    ((intEntered.setX .r0 0x55).setX .r6 0xFF).x .r7 = intEntered.x .r7 ∧
    (∀ k, 1 ≤ k → k ≤ 9 →
      Memory.get ((intEntered.setX .r0 0x55).setX .r6 0xFF).mem (frameAddr intStart k) =
        Memory.get intEntered.mem (frameAddr intStart k)) :=
  ⟨witness_takes_lowest, witness_interruptPhase, by decide, fun _ _ _ => rfl⟩

theorem witness_InterruptsDoNotNest :
    (intStart.setIe false).ie = false ∧ Instr.nop ≠ .iret ∧
    ∃ t, exec .nop (intStart.setIe false) = .next t := ⟨rfl, by decide, _, rfl⟩

end Sys2Proof.Tests
end

section
/-!
SUPPORT. What a phase that may fault can end in, what a register write leaves alone, and when the
interrupt phase takes a line: rules about the shared operations that the whole-machine statements use.
-/

namespace Sys2Proof.Machine

/-! ### The ends of a phase that may fault -/

/-- DIV and MOD: the fault on a zero divisor, or the write (60_exceptions.md R192). -/
theorem endPhase_aluDivide_cases {s t : State} {i : Instr} {a b : Reg} {value : Byte → Byte → Int}
    (h : endPhase s (aluDivide s i a b value) = .next t) :
    (s.x b = 0 ∧ t = s.takeFault (.divideByZero s.pc i.opcode)) ∨
      (s.x b ≠ 0 ∧ t = aluBinary s a b value) := by
  unfold aluDivide at h
  split at h
  · next hb => exact .inl ⟨hb, (Host.Outcome.next.inj h).symm⟩
  · next hb => exact .inr ⟨hb, (Host.Outcome.next.inj h).symm⟩

/-- The conditional jumps: the fault on a flag violation, or one of the two next pcs
(43_control_transfer.md R123 to R127). -/
theorem endPhase_condJump_cases {s t : State} {i : Instr} {a : Reg} {taken : Bool}
    (h : endPhase s (condJump s i a taken) = .next t) :
    (flagViolation s.fl = true ∧ t = s.takeFault (.flagInvariant s.pc i.opcode s.fl)) ∨
      (flagViolation s.fl = false ∧ t = if taken then s.jumpTo (s.x a) else s.advance 2) := by
  rw [condJump_eq] at h
  split at h
  · next hf => exact .inl ⟨hf, (Host.Outcome.next.inj h).symm⟩
  · next hf => exact .inr ⟨Bool.eq_false_iff.mpr hf, (Host.Outcome.next.inj h).symm⟩

/-! ### Frames -/

theorem State.frameBut_setX (s : State) (r : Reg) (v : Byte) : FrameBut [r] s (s.setX r v) :=
  ⟨fun _ hq => State.setX_x_ne s v (List.ne_of_not_mem_cons hq), rfl, ⟨rfl, rfl, rfl⟩, fun _ => rfl⟩

theorem State.frameBut_writeX (s : State) (r : Reg) (v : Int) : FrameBut [r] s (s.writeX r v) :=
  State.frameBut_setX s r (narrow v)

/-! ### The line that is taken (60_exceptions.md R201, R205) -/

/-- The eight lines are the elements of `Line`, in order. -/
theorem lowestLine_eq_find? (p : Byte) :
    lowestLine p = (List.finRange 8).find? fun i => p.getLsbD i.val := rfl

theorem lowestLine_eq_none_iff (p : Byte) : lowestLine p = none ↔ p = 0 := by
  rw [lowestLine_eq_find?]
  constructor
  · intro h
    refine BitVec.eq_of_getLsbD_eq fun k hk => ?_
    simpa using List.find?_eq_none.mp h ⟨k, hk⟩ (List.mem_finRange _)
  · rintro rfl
    simp

theorem lowestLine_eq_some_iff (p : Byte) (i : Line) :
    lowestLine p = some i ↔
      p.getLsbD i.val = true ∧ ∀ j : Line, j < i → p.getLsbD j.val = false := by
  rw [lowestLine_eq_find?, List.find?_eq_some_iff_getElem]
  simp only [List.getElem_finRange, Bool.not_eq_true']
  constructor
  · rintro ⟨hi, k, hk, rfl, hlow⟩
    exact ⟨hi, fun j hj => hlow j.val hj⟩
  · rintro ⟨hi, hlow⟩
    exact ⟨hi, i.val, by simp, rfl, fun j hj => hlow ⟨j, hj.trans i.isLt⟩ hj⟩

theorem interruptPhase_of_quiet {s : State} (h : s.Quiet) : interruptPhase s = .ok s := by
  unfold interruptPhase
  obtain hie | hp := h
  · simp [hie]
  · simp [(lowestLine_eq_none_iff s.pending).mpr hp]

theorem interruptPhase_of_takesLine {s : State} {i : Line} (h : s.TakesLine i) :
    interruptPhase s = enterInterrupt s i := by
  obtain ⟨hie, hline⟩ := h
  simp [interruptPhase, hie, (lowestLine_eq_some_iff s.pending i).mpr hline]

/-! ### Where IE is written (10_state.md R24) -/

theorem enterInterrupt_ie {s t : State} {i : Line} (h : enterInterrupt s i = .ok t) :
    t.ie = false := by
  rw [enterInterrupt_eq] at h
  exact (Except.ok.inj h) ▸ rfl

theorem exec_iret_ie {s t : State} (h : exec .iret s = .next t) : t.ie = true := by
  rw [exec_iret, leaveInterrupt_eq] at h
  exact (Host.Outcome.next.inj h) ▸ rfl

theorem endPhase_aluDivide_ie {s t : State} {i : Instr} {a b : Reg} {value : Byte → Byte → Int}
    (h : endPhase s (aluDivide s i a b value) = .next t) : t.ie = s.ie := by
  obtain ⟨-, rfl⟩ | ⟨-, rfl⟩ := endPhase_aluDivide_cases h <;> rfl

theorem endPhase_condJump_ie {s t : State} {i : Instr} {a : Reg} {taken : Bool}
    (h : endPhase s (condJump s i a taken) = .next t) : t.ie = s.ie := by
  obtain ⟨-, rfl⟩ | ⟨-, rfl⟩ := endPhase_condJump_cases h
  · rfl
  · split <;> rfl

/-- The instructions that may fault go by the ends of their phase; the others answer a state their
closed form names, in which IE is the old one. -/
theorem exec_ie_of_ne_iret {i : Instr} {s t : State} (h : exec i s = .next t) (hi : i ≠ .iret) :
    t.ie = s.ie := by
  cases i
  case iret => exact absurd rfl hi
  case div | mod => exact endPhase_aluDivide_ie h
  case jeq | jne | jlt | jgt => exact endPhase_condJump_ie h
  all_goals
    simp only [exec_nop, exec_hlt, exec_ret, exec_pra, exec_prn, exec_int, exec_pop, exec_push,
      exec_not, exec_inc, exec_dec, exec_call, exec_jmp, exec_cmp, exec_add, exec_sub, exec_mul,
      exec_or, exec_xor, exec_and, exec_ld, exec_ldi, exec_st, Host.Outcome.next.injEq] at h
    subst h
    rfl

theorem State.raiseLine_ie (s : State) (i : Line) : (s.raiseLine i).ie = s.ie := by
  unfold State.raiseLine
  split <;> rfl

/-! ### The obligations of 10_state.md -/

/-- Settles O21: IRET and the dispatch by their closed forms, every other instruction by
`exec_ie_of_ne_iret`. -/
theorem interruptEnableWrittenOnlyTwice : Obligations.InterruptEnableWrittenOnlyTwice := by
  refine ⟨fun i s t h => ⟨?_, exec_ie_of_ne_iret h⟩, fun s t i h => ⟨fun hline => ?_, fun hq => ?_⟩,
    State.raiseLine_ie, rfl⟩
  · rintro rfl
    exact exec_iret_ie h
  · rw [interruptPhase_of_takesLine hline] at h
    exact enterInterrupt_ie h
  · rw [interruptPhase_of_quiet hq] at h
    exact (Except.ok.inj h).symm

/-- Settles O5: both states are `State.reset` but for the memory, and a load puts every byte of the image
into its cell. -/
theorem resetLeavesTheStatedValues : Obligations.ResetLeavesTheStatedValues := by
  intro image himage
  have hlen : image.length = Config.memSize := of_decide_eq_true himage
  constructor
  · intro s hs
    obtain ⟨m, rfl⟩ : ∃ m, s = State.reset.setMem m := hs.elim (⟨_, ·⟩) (⟨[], ·⟩)
    exact ⟨rfl, rfl, rfl, fun r hr => by simp [hr], rfl, rfl, rfl⟩
  · intro k hk
    have hcell : k < Config.memSize := hlen ▸ hk
    refine ⟨hcell, ?_⟩
    rw [memRead_ok _ hcell]
    simp [State.resetWith, Memory.get_storeBytes, hk, hcell]

/-- Settles O27, by the narrowing of a register write and its frame. -/
theorem registerWriteWraps : Obligations.RegisterWriteWraps := by
  intro s r v
  refine ⟨?_, State.frameBut_writeX s r v, rfl⟩
  rw [State.writeX_x_self]
  exact narrow_toNat v

end Sys2Proof.Machine
end

section
/-!
SUPPORT. What a memory access reads, writes and leaves alone (20_memory.md).
-/

namespace Sys2Proof.Machine

/-- A byte takes a number modulo 256, so R43's `v mod 256` is the stored byte itself. -/
@[simp] theorem byte_ofNat_mod (n : Nat) : BitVec.ofNat 8 (n % 256) = BitVec.ofNat 8 n :=
  BitVec.eq_of_toNat_eq (by simp)

/-- Settles O26: the faults from 256 on; below, the write is a `setMem` of the cell, and `Memory.get_set`
tells what each cell then holds. -/
theorem memoryPrimitives : Obligations.MemoryPrimitives := by
  intro s addr v
  refine ⟨fun hout => ⟨memRead_error s hout, memWrite_error s v hout⟩, fun hin => ?_⟩
  refine ⟨memRead_ok s hin, _, memWrite_ok s v hin, ?written, fun k hk => ?others, rfl⟩
  case written =>
    rw [memRead_ok _ hin, State.setMem_mem, Memory.get_set_self, byte_ofNat_mod]
  case others => exact Memory.get_set_ne s.mem _ hk

end Sys2Proof.Machine
end

section
/-!
SUPPORT. What the decoder accepts (30_encoding.md R60 to R69): exactly the rows of the opcode map, with
registers for register operands.
-/

namespace Sys2Proof

/-! ### The shape of an instruction's bytes -/

/-- The per-instruction facts of Laws/PerInstr.lean, for every instruction. -/
theorem Laws.OpcodeShape.all : ∀ i : Instr, Laws.OpcodeShape.Statement i
  | .nop => nop | .hlt => hlt | .ret => ret | .iret => iret
  | .pra a => pra a | .prn a => prn a | .int a => int a | .pop a => pop a | .push a => push a
  | .not a => not a | .inc a => inc a | .dec a => dec a | .call a => call a | .jmp a => jmp a
  | .jeq a => jeq a | .jne a => jne a | .jlt a => jlt a | .jgt a => jgt a
  | .cmp a b => cmp a b | .add a b => add a b | .sub a b => sub a b | .mul a b => mul a b
  | .div a b => div a b | .mod a b => mod a b | .or a b => or a b | .xor a b => xor a b
  | .and a b => and a b | .ld a b => ld a b | .ldi a imm => ldi a imm | .st a b => st a b

@[simp] theorem operandCount_opcode (i : Instr) : operandCount i.opcode = i.operandCount :=
  (Laws.OpcodeShape.all i).1

@[simp] theorem Instr.length_operandBytes (i : Instr) : i.operandBytes.length = i.operandCount := by
  obtain ⟨-, -, hlen⟩ := Laws.OpcodeShape.all i
  exact Nat.succ.inj hlen

/-! ### Register operands (R62, R69) -/

theorem Reg.toNat_toByte_le (r : Reg) : r.toByte.toNat ≤ 7 := by
  cases r <;> decide

theorem Reg.eq_toByte_of_ofByte {b : Byte} {r : Reg} (h : Reg.ofByte b = some r) : b = r.toByte := by
  unfold Reg.ofByte at h
  split at h
  case h_9 => cases h
  all_goals
    cases h
    exact BitVec.eq_of_toNat_eq ‹_›

theorem eq_toByte_of_regOperand {op b : Byte} {r : Reg} (h : regOperand op b = .ok r) :
    b = r.toByte := by
  unfold regOperand at h
  split at h
  · next hr =>
    cases h
    exact Reg.eq_toByte_of_ofByte hr
  · cases h

/-- Every operand byte but the immediate of LDI is a register's. -/
theorem Instr.operandBytes_getElem_le (i : Instr) {k : Nat} (hk : k < i.operandBytes.length)
    (hreg : k = 0 ∨ i.opcode ≠ 0x99) : i.operandBytes[k].toNat ≤ 7 := by
  cases i
  case ldi a imm =>
    obtain rfl : k = 0 := hreg.resolve_right (fun hne => hne rfl)
    exact a.toNat_toByte_le
  all_goals
    refine (?_ : ∀ b ∈ Instr.operandBytes _, b.toNat ≤ 7) _ (List.getElem_mem hk)
    simp [Instr.operandBytes, Reg.toNat_toByte_le]

/-! ### The rows of the opcode map (R66) -/

/-- The instructions of a row `(op, sh)` are encoded as `op` and the operand bytes of the row's kind. -/
def Shape.Encodes (op : Byte) : Shape → Prop
  | .none i => encode i = [op]
  | .reg f => ∀ a, encode (f a) = [op, a.toByte]
  | .regReg f => ∀ a b, encode (f a b) = [op, a.toByte, b.toByte]
  | .regImm f => ∀ a imm, encode (f a imm) = [op, a.toByte, imm]

theorem opcodeMap_encodes : ∀ row ∈ opcodeMap, row.2.Encodes row.1 := by
  simp [opcodeMap, Shape.Encodes, encode, Instr.opcode, Instr.operandBytes]

theorem mem_of_lookupShape {op : Byte} {sh : Shape} {rows : List (Byte × Shape)}
    (h : lookupShape op rows = some sh) : (op, sh) ∈ rows := by
  induction rows with
  | nil => cases h
  | cons row rows ih =>
    obtain ⟨k, sh'⟩ := row
    unfold lookupShape at h
    split at h
    · next hk =>
      cases h
      exact hk ▸ List.mem_cons_self
    · exact List.mem_cons_of_mem _ (ih h)

theorem encode_append_of_buildInstr {op : Byte} {sh : Shape} {bytes rest : List Byte} {i : Instr}
    (hsh : sh.Encodes op) (h : buildInstr op sh bytes = .ok (i, rest)) :
    op :: bytes = encode i ++ rest := by
  unfold buildInstr at h
  split at h
  · cases h
    exact congrArg (· ++ bytes) hsh.symm
  · split at h
    · next a hA =>
      cases h
      rw [hsh, eq_toByte_of_regOperand hA]
      rfl
    · cases h
  · split at h
    · next a b hA hB =>
      cases h
      rw [hsh, eq_toByte_of_regOperand hA, eq_toByte_of_regOperand hB]
      rfl
    all_goals cases h
  · split at h
    · next a hA =>
      cases h
      rw [hsh, eq_toByte_of_regOperand hA]
      rfl
    · cases h
  all_goals cases h

/-! ### The decoder -/

theorem encode_append_of_decode {bytes rest : List Byte} {i : Instr}
    (h : decode bytes = .ok (i, rest)) : bytes = encode i ++ rest := by
  cases bytes with
  | nil => cases h
  | cons op bytes =>
    simp only [decode] at h
    split_ifs at h
    split at h
    · cases h
    · next hrow => exact encode_append_of_buildInstr (opcodeMap_encodes _ (mem_of_lookupShape hrow)) h

/-- Decoded from its opcode and as many operand bytes as the opcode asks for, an instruction leaves no
byte over. -/
theorem encode_of_decode {op : Byte} {operands rest : List Byte} {i : Instr}
    (h : decode (op :: operands) = .ok (i, rest)) (hlen : operands.length = operandCount op) :
    encode i = op :: operands := by
  obtain ⟨hop, happ⟩ := List.cons.inj (encode_append_of_decode h)
  have hcount : operands.length = i.operandBytes.length := by simp [hlen, hop]
  have happ' : operands ++ [] = i.operandBytes ++ rest := (List.append_nil operands).trans happ
  rw [hop, (List.append_inj happ' hcount).1, encode]

end Sys2Proof
end

section
/-!
SUPPORT. What the fetch reads (40_execution_cycle.md R82 to R84, R88), and the step of a machine that takes
no interrupt.
-/

namespace Sys2Proof.Machine

theorem bytesAt_cons {s : State} {addr : Nat} {b : Byte} {bs : List Byte} :
    BytesAt s addr (b :: bs) ↔ Memory.get s.mem addr = b ∧ BytesAt s (addr + 1) bs := by
  constructor
  · intro h
    refine ⟨h 0 (Nat.succ_pos _), fun k hk => ?_⟩
    rw [Nat.add_right_comm]
    exact h (k + 1) (Nat.succ_lt_succ hk)
  · rintro ⟨hb, hbs⟩ (_ | k) hk
    · exact hb
    · rw [← Nat.add_assoc, Nat.add_right_comm]
      exact hbs k (Nat.lt_of_succ_lt_succ hk)

theorem exists_bytesAt (s : State) (addr n : Nat) : ∃ bs : List Byte, bs.length = n ∧ BytesAt s addr bs :=
  ⟨(List.range n).map fun k => Memory.get s.mem (addr + k), by simp, fun k hk => by simp⟩

theorem readBytes_of_bytesAt {s : State} {addr : Nat} {bs : List Byte} (h : BytesAt s addr bs)
    (hin : addr + bs.length ≤ Config.memSize) : readBytes s addr bs.length = .ok bs := by
  induction bs generalizing addr with
  | nil => rfl
  | cons b bs ih =>
    obtain ⟨hb, hbs⟩ := bytesAt_cons.mp h
    rw [List.length_cons] at hin ⊢
    simp [readBytes, memRead_ok s (a := addr) (by omega), hb, ih hbs (by omega)]

theorem fetch_of_operandCount_three {s : State} (hpc : s.pc.toNat < Config.memSize)
    (h3 : operandCount (Memory.get s.mem s.pc.toNat) = 3) :
    fetch s = .error (.unknownInstruction s.pc (Memory.get s.mem s.pc.toNat)) := by
  simp [fetch, memRead_ok s hpc, h3]

/-- Bytes in memory that are no instruction's encoding: the decoder refuses, whatever its reason. -/
theorem fetch_of_no_encoding {s : State} {op : Byte} {operands : List Byte}
    (hbytes : BytesAt s s.pc.toNat (op :: operands)) (hlen : operands.length = operandCount op)
    (hin : s.pc.toNat + operandCount op < Config.memSize) (hno : ∀ i, encode i ≠ op :: operands) :
    fetch s = .error (.unknownInstruction s.pc op) := by
  obtain ⟨hop, hoperands⟩ := bytesAt_cons.mp hbytes
  have hread : readBytes s (s.pc.toNat + 1) (operandCount op) = .ok operands :=
    hlen ▸ readBytes_of_bytesAt hoperands (by omega)
  have hpc : s.pc.toNat < Config.memSize := by omega
  subst hop
  by_cases h3 : operandCount (Memory.get s.mem s.pc.toNat) = 3
  · exact fetch_of_operandCount_three hpc h3
  · simp only [fetch, memRead_ok s hpc, bind_ok, if_neg h3, hread]
    split
    · next i rest hdec => exact absurd (encode_of_decode hdec hlen) (hno i)
    · rfl

theorem step_of_quiet {s : State} (hrun : s.run = .running) (hq : s.Quiet) :
    step s = instructionPhase s := by
  simp [step, trigger, hrun, interruptPhase_of_quiet hq]

theorem step_of_fetch_error {s : State} {f : Fault} (hrun : s.run = .running) (hq : s.Quiet)
    (hf : fetch s = .error f) : step s = .next (s.takeFault f) := by
  simp [step_of_quiet hrun hq, instructionPhase, hf]

/-! ### The obligations of 30_encoding.md -/

/-- Settles O12: with count 3 the fault comes before any operand is fetched; otherwise the bytes at the pc
begin with no instruction's opcode, so they are no instruction's encoding. -/
theorem unknownOpcodeFaults : Obligations.UnknownOpcodeFaults := by
  rintro s op hrun hq hpc rfl (h3 | ⟨hunknown, hin⟩)
  · exact step_of_fetch_error hrun hq (fetch_of_operandCount_three hpc h3)
  · obtain ⟨operands, hlen, hoperands⟩ := exists_bytesAt s (s.pc.toNat + 1) (operandCount _)
    refine step_of_fetch_error hrun hq
      (fetch_of_no_encoding (bytesAt_cons.mpr ⟨rfl, hoperands⟩) hlen hin fun i hi => ?_)
    exact hunknown i (List.cons.inj hi).1

/-- Settles O13: an instruction encoded as the bytes at the pc would have the opcode of `i`, and at the
offending place a register's byte, which is at most 7. -/
theorem reservedOperandFaults : Obligations.ReservedOperandFaults := by
  rintro s i opA opB hrun hq hfits hop rfl rfl hbad
  obtain ⟨k, hk, hreg, hbig⟩ : ∃ k < i.operandCount, (k = 0 ∨ i.opcode ≠ 0x99) ∧
      7 < (Memory.get s.mem (s.pc.toNat + 1 + k)).toNat := by
    obtain ⟨hn, hA⟩ | ⟨hn, hne, hB⟩ := hbad
    · exact ⟨0, hn, .inl rfl, hA⟩
    · exact ⟨1, by omega, .inr hne, hB⟩
  obtain ⟨operands, hlen, hoperands⟩ := exists_bytesAt s (s.pc.toNat + 1) i.operandCount
  have hin : s.pc.toNat + i.operandCount < Config.memSize := of_decide_eq_true hfits
  refine step_of_fetch_error hrun hq
    (fetch_of_no_encoding (bytesAt_cons.mpr ⟨hop, hoperands⟩) (by simpa using hlen) (by simpa using hin)
      fun j hj => ?_)
  obtain ⟨hopcode, rfl⟩ := List.cons.inj hj
  have hle := j.operandBytes_getElem_le (hlen ▸ hk) (hopcode ▸ hreg)
  rw [← hoperands k (hlen ▸ hk)] at hle
  omega

end Sys2Proof.Machine
end

section
/-!
SUPPORT. What an instruction that only falls through leaves alone, and the obligation of
40_execution_cycle.md on HLT and NOP (R90, R91).
-/

namespace Sys2Proof.Machine

theorem State.frameBut_advance (s : State) (n : Nat) : FrameBut [] s (s.advance n) :=
  ⟨fun r _ => State.advance_x s n r, rfl, ⟨rfl, rfl, rfl⟩, fun _ => rfl⟩

/-- Settles O29, by the closed forms `exec_hlt` and `exec_nop`: after the change of RUN, HLT is an advance
like NOP, so it has the frame of one. -/
theorem hltAndNop : Obligations.HltAndNop := by
  refine ⟨rfl, rfl, fun s => ⟨?hlt, ?nop⟩⟩
  case hlt =>
    obtain ⟨hx, hfl, ⟨hie, hrun, hout⟩, hmem⟩ := (s.setRun .halted).frameBut_advance 1
    exact ⟨_, exec_hlt s, hrun, rfl, hx, hfl, hie, hout, hmem⟩
  case nop => exact ⟨_, exec_nop s, rfl, s.frameBut_advance 1⟩

end Sys2Proof.Machine
end

section
/-!
SUPPORT. The frames of a register load and of a store, each kept by the advance of the pc that follows it,
and the obligations of 41_load_store.md on LDI, LD and ST (R100 to R102).
-/

namespace Sys2Proof.Machine

/-- No frame speaks of the pc, so the auto-advance (40_execution_cycle.md R86) keeps it. -/
theorem FrameBut.advance {rs : List Reg} {s t : State} (h : FrameBut rs s t) (n : Nat) :
    FrameBut rs s (t.advance n) := h

theorem StoreFrameBut.advance {rs : List Reg} {as : List Nat} {s t : State}
    (h : StoreFrameBut rs as s t) (n : Nat) : StoreFrameBut rs as s (t.advance n) := h

theorem State.storeFrameBut_setMem_set (s : State) (addr : Nat) (v : Byte) :
    StoreFrameBut [] [addr] s (s.setMem (Memory.set s.mem addr v)) :=
  ⟨fun r _ => State.setMem_x s _ r, rfl, ⟨rfl, rfl, rfl⟩,
    fun _ hk => Memory.get_set_ne s.mem v (List.ne_of_not_mem_cons hk)⟩

/-- Settles O30, by the closed form `exec_ldi`: a register write, then the advance. -/
theorem ldiResult : Obligations.LdiResult := by
  intro a imm s
  refine ⟨rfl, _, exec_ldi a imm s, ?loaded, rfl, (s.frameBut_setX a imm).advance 3⟩
  case loaded => rw [State.advance_x, State.setX_x_self]

/-- Settles O31, by the closed form `exec_ld`: the cell is read in `s`, before the register write, so
`a = b` is no special case, and an address held in a byte is never beyond memory. -/
theorem ldResult : Obligations.LdResult := by
  intro a b s
  refine ⟨rfl, _, exec_ld a b s, ?loaded, rfl, (s.frameBut_setX a _).advance 3⟩
  case loaded => rw [State.advance_x, State.setX_x_self]

/-- Settles O32, by the closed form `exec_st`: a write of the one cell, then the advance. -/
theorem stResult : Obligations.StResult := by
  intro a b s
  refine ⟨rfl, _, exec_st a b s, ?stored, rfl, (s.storeFrameBut_setMem_set (regAddr s a) (s.x b)).advance 3⟩
  case stored => exact Memory.get_set_self s.mem (regAddr s a) (s.x b)

end Sys2Proof.Machine
end

section
/-!
SUPPORT. How frames compose, what the store of a push leaves alone, and the obligations of 42_stack.md on
the primitives, PUSH and POP (R110 to R113).
-/

namespace Sys2Proof.Machine

theorem FrameBut.trans {rs qs : List Reg} {s t u : State} (h : FrameBut rs s t)
    (h' : FrameBut qs t u) : FrameBut (rs ++ qs) s u := by
  obtain ⟨hx, hfl, ⟨hie, hrun, hout⟩, hmem⟩ := h
  obtain ⟨hx', hfl', ⟨hie', hrun', hout'⟩, hmem'⟩ := h'
  refine ⟨fun r hr => ?_, hfl'.trans hfl, ⟨hie'.trans hie, hrun'.trans hrun, hout'.trans hout⟩,
    fun k => (hmem' k).trans (hmem k)⟩
  obtain ⟨hrs, hqs⟩ := not_or.mp (mt List.mem_append.mpr hr)
  exact (hx' r hqs).trans (hx r hrs)

theorem FrameBut.trans_store {rs : List Reg} {as : List Nat} {s t u : State} (h : FrameBut rs s t)
    (h' : StoreFrameBut [] as t u) : StoreFrameBut rs as s u := by
  obtain ⟨hx, hfl, ⟨hie, hrun, hout⟩, hmem⟩ := h
  obtain ⟨hx', hfl', ⟨hie', hrun', hout'⟩, hmem'⟩ := h'
  exact ⟨fun r hr => (hx' r List.not_mem_nil).trans (hx r hr), hfl'.trans hfl,
    ⟨hie'.trans hie, hrun'.trans hrun, hout'.trans hout⟩, fun k hk => (hmem' k hk).trans (hmem k)⟩

/-- What `push_eq`, `exec_push` and `exec_call` do to the registers and the memory changes SP and the cell
below it only. -/
theorem State.storeFrameBut_stackStore (s : State) (b : Byte) :
    StoreFrameBut [.r7] [frameAddr s 1] s
      ((s.setX .r7 (s.x .r7 - 1#8)).setMem (Memory.set s.mem (s.x .r7 - 1#8).toNat b)) :=
  (s.frameBut_setX .r7 _).trans_store (State.storeFrameBut_setMem_set _ _ b)

/-- Settles O28, by the closed forms `push_eq` and `pop_eq`. -/
theorem stackPrimitives : Obligations.StackPrimitives := by
  refine ⟨fun s v => ?push, fun s => ?pop⟩
  case push =>
    refine ⟨_, push_eq s v, ?sp, ?stored, s.storeFrameBut_stackStore _, rfl⟩
    case sp => rw [State.setMem_x, State.setX_x_self]; rfl
    case stored => rw [byte_ofNat_mod]; exact Memory.get_set_self s.mem (frameAddr s 1) _
  case pop => exact ⟨_, pop_eq s, State.setX_x_self s .r7 _, s.frameBut_setX .r7 _, rfl⟩

/-- Settles O34, by the closed form `exec_push`: the register is read after the decrement, so `a = .r7`
is the one case where it is not the register of `s` (D15). -/
theorem pushResult : Obligations.PushResult := by
  intro a s
  refine ⟨rfl, _, exec_push a s, ?sp, ?stored, rfl, (s.storeFrameBut_stackStore _).advance 2⟩
  case sp => rw [State.advance_x, State.setMem_x, State.setX_x_self]; rfl
  case stored =>
    exact (Memory.get_set_self s.mem (frameAddr s 1) _).trans (State.setX_x s .r7 a _)

/-- Settles O35, by the closed form `exec_pop`: SP is read for the increment after the load of `a`, so
with `a = .r7` the loaded byte is incremented (D15), and otherwise the SP of `s`. -/
theorem popResult : Obligations.PopResult := by
  intro a s
  refine ⟨rfl, _, exec_pop a s, fun ha => ⟨?loaded, ?sp⟩, ?spLoaded, rfl,
    ((s.frameBut_setX a _).trans (State.frameBut_setX _ .r7 _)).advance 2⟩
  case loaded => rw [State.advance_x, State.setX_x_ne _ _ ha, State.setX_x_self]
  case sp => rw [State.advance_x, State.setX_x_self, State.setX_x_ne s _ ha.symm]; rfl
  case spLoaded =>
    rintro rfl
    rw [State.advance_x, State.setX_x_self, State.setX_x_self]
    rfl

end Sys2Proof.Machine
end

section
/-!
SUPPORT. Where a jump goes and what it leaves alone, when a conditional jump faults, and the obligations of
43_control_transfer.md on CALL, RET, JMP, JEQ, JNE, JGT and JLT (R120 to R127).
-/

namespace Sys2Proof.Machine

/-! ### Jumps (R18) -/

/-- `zext` keeps the number, so a jump goes to one of the 256 cells. -/
theorem State.jumpTo_pc_toNat (s : State) (v : Byte) : (s.jumpTo v).pc.toNat = v.toNat :=
  BitVec.toNat_setWidth_of_le (by decide)

theorem State.frameBut_jumpTo (s : State) (v : Byte) : FrameBut [] s (s.jumpTo v) :=
  ⟨fun r _ => State.jumpTo_x s v r, rfl, ⟨rfl, rfl, rfl⟩, fun _ => rfl⟩

/-- No frame speaks of the pc. -/
theorem FrameBut.jumpTo {rs : List Reg} {s t : State} (h : FrameBut rs s t) (v : Byte) :
    FrameBut rs s (t.jumpTo v) := h

theorem StoreFrameBut.jumpTo {rs : List Reg} {as : List Nat} {s t : State}
    (h : StoreFrameBut rs as s t) (v : Byte) : StoreFrameBut rs as s (t.jumpTo v) := h

/-- Settles O37, by the closed form `exec_call`: the target is read after the decrement of SP, so `a = .r7`
is the one case where it is not the register of `s` (D15). -/
theorem callResult : Obligations.CallResult := by
  intro a s
  refine ⟨rfl, _, exec_call a s, ?sp, ?stored, ?target, (s.storeFrameBut_stackStore _).jumpTo _⟩
  case sp => rw [State.jumpTo_x, State.setMem_x, State.setX_x_self]; rfl
  case stored => rw [byte_ofNat_mod]; exact Memory.get_set_self s.mem (frameAddr s 1) _
  case target => rw [State.jumpTo_pc_toNat, State.setX_x]; rfl

/-- Settles O38, by the closed form `exec_ret`: a pop, then a jump to the popped byte. -/
theorem retResult : Obligations.RetResult := by
  refine ⟨rfl, fun s => ⟨_, exec_ret s, State.jumpTo_pc_toNat _ _, ?sp, (s.frameBut_setX .r7 _).jumpTo _⟩⟩
  case sp => rw [State.jumpTo_x, State.setX_x_self]; rfl

/-- Settles O40, by the closed form `exec_jmp`. -/
theorem jmpResult : Obligations.JmpResult := fun a s =>
  ⟨rfl, _, exec_jmp a s, s.jumpTo_pc_toNat (s.x a), s.frameBut_jumpTo (s.x a)⟩

/-! ### Conditional jumps (R123 to R127) -/

/-- The statements' count of `FL[2:0]` is the model's. -/
theorem lowFlagCount_eq_flCount (fl : Byte) : lowFlagCount fl = flCount fl := by
  simp only [lowFlagCount, ← List.countP_eq_length_filter, List.countP_cons, List.countP_nil, flCount,
    flE, flG, flL, Bool.toNat, Bool.cond_eq_ite]
  omega

theorem flagViolation_iff (fl : Byte) : flagViolation fl = true ↔ 1 < lowFlagCount fl := by
  rw [lowFlagCount_eq_flCount]
  exact decide_eq_true_iff

theorem endPhase_condJump_of_violation {s : State} (h : 1 < lowFlagCount s.fl) (i : Instr) (a : Reg)
    (taken : Bool) :
    endPhase s (condJump s i a taken) = .next (s.takeFault (.flagInvariant s.pc i.opcode s.fl)) := by
  rw [condJump_eq, if_pos ((flagViolation_iff s.fl).mpr h), endPhase_error]

theorem endPhase_condJump_of_no_violation {s : State} (h : lowFlagCount s.fl ≤ 1) (i : Instr) (a : Reg)
    (taken : Bool) :
    endPhase s (condJump s i a taken) = .next (if taken then s.jumpTo (s.x a) else s.advance 2) := by
  rw [condJump_eq, if_neg (mt (flagViolation_iff s.fl).mp h.not_gt), endPhase_ok]

/-- Settles O41: the four instructions differ in the opcode and the condition only; what each then does is
one rule of `condJump`. -/
theorem conditionalJumpResult : Obligations.ConditionalJumpResult := by
  intro a s i op taken hi
  obtain ⟨hencode, hexec, rfl⟩ : encode i = [op, a.toByte] ∧
      exec i s = endPhase s (condJump s i a taken) ∧ i.opcode = op := by
    obtain ⟨rfl, rfl, rfl⟩ | ⟨rfl, rfl, rfl⟩ | ⟨rfl, rfl, rfl⟩ | ⟨rfl, rfl, rfl⟩ := hi
    · exact ⟨rfl, exec_jeq a s, rfl⟩
    · exact ⟨rfl, exec_jne a s, rfl⟩
    · exact ⟨rfl, exec_jgt a s, rfl⟩
    · exact ⟨rfl, exec_jlt a s, rfl⟩
  rw [hexec]
  refine ⟨hencode, fun hflags => ⟨_, endPhase_condJump_of_no_violation hflags i a taken, ?_⟩,
    fun hflags => endPhase_condJump_of_violation hflags i a taken⟩
  cases taken with
  | true => exact ⟨fun _ => s.jumpTo_pc_toNat (s.x a), nofun, s.frameBut_jumpTo (s.x a)⟩
  | false => exact ⟨nofun, fun _ => rfl, s.frameBut_advance 2⟩

end Sys2Proof.Machine
end

section
/-!
SUPPORT. Which bit INT sets, and the obligations of 44_interrupt_instructions.md on INT and IRET (R140,
R141).
-/

namespace Sys2Proof.Machine

/-- A byte keeps bits 7:0 of the unbounded `1 << line`, so a line of 8 or more sets none of them (D3). -/
theorem getLsbD_narrow_raisedValue (is line : Byte) {k : Nat} (hk : k < 8) :
    (narrow (raisedValue is line)).getLsbD k = (is.getLsbD k || decide (line.toNat = k)) := by
  rw [raisedValue, narrow_natCast, BitVec.getLsbD_ofNat, Nat.testBit_or, Nat.one_shiftLeft,
    Nat.testBit_two_pow, BitVec.testBit_toNat, decide_eq_true hk, Bool.true_and]

/-- Settles O42, by the closed form `exec_int`: a write of R6, then the advance. Both operands are read
before the write, so INT R6 is no special case. -/
theorem intResult : Obligations.IntResult := by
  intro a s
  refine ⟨rfl, _, exec_int a s, fun k hk => ?raised, rfl, (s.frameBut_writeX .r6 _).advance 2⟩
  case raised =>
    rw [State.advance_x, State.writeX_x_self]
    exact getLsbD_narrow_raisedValue _ _ hk

theorem exec_iret_of_leaveInterrupt {s t : State} (h : leaveInterrupt s = .ok t) :
    exec .iret s = .next t := by
  rw [exec_iret, h, endPhase_ok]

/-- Settles O43: `leaveInterrupt_eq` names every piece of the state the nine pops leave; only the pc, the
zero extension of the popped byte, is not the stated value itself. -/
theorem iretResult : Obligations.IretResult := by
  refine ⟨rfl, fun s => ⟨_, exec_iret_of_leaveInterrupt (leaveInterrupt_eq s), rfl, rfl, rfl, rfl, rfl,
    rfl, rfl, rfl, ?pc, rfl, rfl, rfl, rfl, fun _ => rfl⟩⟩
  case pc => exact BitVec.toNat_setWidth_of_le (by decide)

end Sys2Proof.Machine
end

section
/-!
SUPPORT. What an instruction that emits an event leaves alone, and the obligation of 45_output.md on PRN
and PRA (R150, R151).
-/

namespace Sys2Proof.Machine

/-- `FrameBut` asks for the old `OUT`, so it holds of the advance after the event; the event itself touches
nothing but `OUT`, so what else the advance keeps is that of `s`. -/
theorem State.advance_emit_frame (s : State) (e : OutEvent) (n : Nat) :
    SameRegsBut [] s ((s.emit e).advance n) ∧ ((s.emit e).advance n).fl = s.fl ∧
      ((s.emit e).advance n).ie = s.ie ∧ ((s.emit e).advance n).run = s.run ∧
      SameMemory s ((s.emit e).advance n) := by
  obtain ⟨hx, hfl, ⟨hie, hrun, -⟩, hmem⟩ := (s.emit e).frameBut_advance n
  exact ⟨hx, hfl, hie, hrun, hmem⟩

/-- Settles O44, by the closed forms `exec_prn` and `exec_pra`, which differ in the event only: an event,
then the advance. -/
theorem outputResult : Obligations.OutputResult := by
  refine fun a s => ⟨rfl, rfl, ?prn, ?pra⟩
  case prn => exact ⟨_, exec_prn a s, rfl, rfl, s.advance_emit_frame (.num (s.x a)) 2⟩
  case pra => exact ⟨_, exec_pra a s, rfl, rfl, s.advance_emit_frame (.chr (s.x a)) 2⟩

end Sys2Proof.Machine
end

section
/-!
SUPPORT. What the shared ALU shapes and the flags of CMP leave, and the obligations of 46_alu.md on the
twelve ALU instructions (R160 to R172).
-/

namespace Sys2Proof.Machine

/-! ### The shared shapes (R160) -/

/-- Both operands are read before the write, so `a = b` is no special case (D2). -/
@[simp] theorem aluBinary_x_self (s : State) (a b : Reg) (value : Byte → Byte → Int) :
    (aluBinary s a b value).x a = narrow (value (s.x a) (s.x b)) := by
  rw [aluBinary, State.advance_x, State.writeX_x_self]

@[simp] theorem aluUnary_x_self (s : State) (a : Reg) (value : Byte → Int) :
    (aluUnary s a value).x a = narrow (value (s.x a)) := by
  rw [aluUnary, State.advance_x, State.writeX_x_self]

theorem frameBut_aluBinary (s : State) (a b : Reg) (value : Byte → Byte → Int) :
    FrameBut [a] s (aluBinary s a b value) := (s.frameBut_writeX a _).advance 3

theorem frameBut_aluUnary (s : State) (a : Reg) (value : Byte → Int) :
    FrameBut [a] s (aluUnary s a value) := (s.frameBut_writeX a _).advance 2

theorem endPhase_aluDivide_of_zero {s : State} {b : Reg} (hb : s.x b = 0) (i : Instr) (a : Reg)
    (value : Byte → Byte → Int) :
    endPhase s (aluDivide s i a b value) = .next (s.takeFault (.divideByZero s.pc i.opcode)) := by
  rw [aluDivide, if_pos hb, endPhase_error]

theorem endPhase_aluDivide_of_ne_zero {s : State} {b : Reg} (hb : s.x b ≠ 0) (i : Instr) (a : Reg)
    (value : Byte → Byte → Int) :
    endPhase s (aluDivide s i a b value) = .next (aluBinary s a b value) := by
  rw [aluDivide, if_neg hb, endPhase_ok]

/-! ### The values, as the register write narrows them -/

theorem narrow_natCast_toNat (n : Nat) : (narrow (n : Int)).toNat = n % 256 := by
  rw [narrow_natCast, BitVec.toNat_ofNat]

theorem narrow_natCast_toNat_of_le {n : Nat} {x : Byte} (h : n ≤ x.toNat) :
    (narrow (n : Int)).toNat = n := by
  rw [narrow_natCast_toNat, Nat.mod_eq_of_lt (h.trans_lt x.isLt)]

theorem narrow_addValue_toNat (x y : Byte) :
    (narrow (addValue x y)).toNat = (x.toNat + y.toNat) % 256 := by
  rw [addValue, ← Int.natCast_add, narrow_natCast_toNat]

theorem narrow_mulValue_toNat (x y : Byte) :
    (narrow (mulValue x y)).toNat = (x.toNat * y.toNat) % 256 := by
  rw [mulValue, ← Int.natCast_mul, narrow_natCast_toNat]

theorem narrow_divValue_toNat (x y : Byte) : (narrow (divValue x y)).toNat = x.toNat / y.toNat :=
  narrow_natCast_toNat_of_le (Nat.div_le_self x.toNat y.toNat)

theorem narrow_modValue_toNat (x y : Byte) : (narrow (modValue x y)).toNat = x.toNat % y.toNat :=
  narrow_natCast_toNat_of_le (Nat.mod_le x.toNat y.toNat)

theorem narrow_andValue (x y : Byte) : narrow (andValue x y) = x &&& y := by
  rw [andValue, ← BitVec.toNat_and, narrow_byte]

theorem narrow_orValue (x y : Byte) : narrow (orValue x y) = x ||| y := by
  rw [orValue, ← BitVec.toNat_or, narrow_byte]

theorem narrow_xorValue (x y : Byte) : narrow (xorValue x y) = x ^^^ y := by
  rw [xorValue, ← BitVec.toNat_xor, narrow_byte]

/-- Modulo 256, the complement `-v - 1` of an unbounded integer is the one's complement of the byte. -/
theorem narrow_notValue_toNat (x : Byte) : (narrow (notValue x)).toNat = 255 - x.toNat := by
  have hmod := narrow_toNat (notValue x)
  have hlt := x.isLt
  rw [notValue] at hmod ⊢
  omega

theorem narrow_incValue_toNat (x : Byte) : (narrow (incValue x)).toNat = (x.toNat + 1) % 256 :=
  narrow_natCast_toNat (x.toNat + 1)

/-! ### The flags of CMP (R172) -/

theorem compareBit_cases (x y : Byte) :
    (x.toNat = y.toNat ∧ compareBit x y = 0b001) ∨ (y.toNat < x.toNat ∧ compareBit x y = 0b010) ∨
      (x.toNat < y.toNat ∧ compareBit x y = 0b100) := by
  obtain h | h | h := lt_trichotomy x.toNat y.toNat
  · exact .inr (.inr ⟨h, by rw [compareBit, if_neg h.ne, if_neg h.not_gt]⟩)
  · exact .inl ⟨h, if_pos h⟩
  · exact .inr (.inl ⟨h, by rw [compareBit, if_neg h.ne', if_pos h]⟩)

theorem getLsbD_compareBit_of_ge (x y : Byte) {k : Nat} (hk : 3 ≤ k) :
    (compareBit x y).getLsbD k = false := by
  have hlt : (compareBit x y).toNat < 2 ^ 3 := by
    obtain ⟨-, h⟩ | ⟨-, h⟩ | ⟨-, h⟩ := compareBit_cases x y <;> rw [h] <;> decide
  exact Nat.testBit_lt_two_pow (hlt.trans_le (Nat.pow_le_pow_right two_pos hk))

/-- The mask of `cmpFlags` keeps bits 7:3. -/
theorem getLsbD_upperMask {k : Nat} (hk : k < 8) : (0b11111000 : Byte).getLsbD k = decide (3 ≤ k) := by
  decide +revert

theorem getLsbD_cmpFlags_of_lt (fl x y : Byte) {k : Nat} (hk : k < 3) :
    (cmpFlags fl x y).getLsbD k = (compareBit x y).getLsbD k := by
  rw [cmpFlags, BitVec.getLsbD_or, BitVec.getLsbD_and, getLsbD_upperMask (hk.trans (by decide)),
    decide_eq_false hk.not_ge, Bool.and_false, Bool.false_or]

theorem getLsbD_cmpFlags_of_ge (fl x y : Byte) {k : Nat} (hk : 3 ≤ k) :
    (cmpFlags fl x y).getLsbD k = fl.getLsbD k := by
  rw [cmpFlags, BitVec.getLsbD_or, BitVec.getLsbD_and, getLsbD_compareBit_of_ge x y hk, Bool.or_false]
  obtain hlt | hge := Nat.lt_or_ge k 8
  · rw [getLsbD_upperMask hlt, decide_eq_true hk, Bool.and_true]
  · rw [BitVec.getLsbD_of_ge fl k hge, Bool.false_and]

/-- The three cases are those of `compareBit_cases`; in each the one bit is a numeral. -/
theorem getLsbD_cmpFlags_low (fl x y : Byte) :
    (cmpFlags fl x y).getLsbD 0 = decide (x.toNat = y.toNat) ∧
      (cmpFlags fl x y).getLsbD 1 = decide (x.toNat > y.toNat) ∧
      (cmpFlags fl x y).getLsbD 2 = decide (x.toNat < y.toNat) := by
  simp only [getLsbD_cmpFlags_of_lt, Nat.reduceLT]
  obtain ⟨hxy, h⟩ | ⟨hxy, h⟩ | ⟨hxy, h⟩ := compareBit_cases x y <;> rw [h]
  · exact ⟨(decide_eq_true hxy).symm, (decide_eq_false hxy.not_gt).symm, (decide_eq_false hxy.not_lt).symm⟩
  · exact ⟨(decide_eq_false hxy.ne').symm, (decide_eq_true hxy).symm, (decide_eq_false hxy.not_gt).symm⟩
  · exact ⟨(decide_eq_false hxy.ne).symm, (decide_eq_false hxy.not_gt).symm, (decide_eq_true hxy).symm⟩

theorem lowFlagCount_cmpFlags (fl x y : Byte) : lowFlagCount (cmpFlags fl x y) = 1 := by
  have hlow : lowFlagCount (cmpFlags fl x y) = lowFlagCount (compareBit x y) :=
    congrArg List.length (List.filter_congr fun k hk => getLsbD_cmpFlags_of_lt fl x y (List.mem_range.mp hk))
  obtain ⟨-, h⟩ | ⟨-, h⟩ | ⟨-, h⟩ := compareBit_cases x y <;> rw [hlow, h] <;> rfl

/-! ### The obligations of 46_alu.md -/

/-- Settles O45: the three instructions have one shape, a narrowed write of operand A, and differ in the
value only. -/
theorem addSubMulResult : Obligations.AddSubMulResult := by
  refine fun a b s => ⟨rfl, rfl, rfl, ⟨_, exec_add a b s, ?sum, rfl, frameBut_aluBinary s a b _⟩,
    ⟨_, exec_sub a b s, ?difference, rfl, frameBut_aluBinary s a b _⟩,
    _, exec_mul a b s, ?product, rfl, frameBut_aluBinary s a b _⟩
  case sum => rw [aluBinary_x_self, narrow_addValue_toNat]
  case difference => rw [aluBinary_x_self]; exact narrow_toNat _
  case product => rw [aluBinary_x_self, narrow_mulValue_toNat]

/-- Settles O46, by the two ends of `aluDivide`: the write for a divisor that is not 0, and the fault, which
changes RUN only, for a divisor that is. -/
theorem divModResult : Obligations.DivModResult := by
  refine fun a b s => ⟨rfl, rfl, fun hb => ⟨?div, ?mod⟩, fun hb => ⟨?divZero, ?modZero⟩⟩
  case div =>
    refine ⟨_, (exec_div a b s).trans (endPhase_aluDivide_of_ne_zero hb _ a _), ?_, rfl,
      frameBut_aluBinary s a b _⟩
    rw [aluBinary_x_self, narrow_divValue_toNat]
  case mod =>
    refine ⟨_, (exec_mod a b s).trans (endPhase_aluDivide_of_ne_zero hb _ a _), ?_, rfl,
      frameBut_aluBinary s a b _⟩
    rw [aluBinary_x_self, narrow_modValue_toNat]
  case divZero => exact (exec_div a b s).trans (endPhase_aluDivide_of_zero hb _ a _)
  case modZero => exact (exec_mod a b s).trans (endPhase_aluDivide_of_zero hb _ a _)

/-- Settles O47: the narrowed value is the bitwise operation of the two bytes, and for NOT the complement
modulo 256. -/
theorem bitwiseResult : Obligations.BitwiseResult := by
  refine fun a b s => ⟨rfl, rfl, rfl, rfl,
    ⟨_, exec_and a b s, fun k _ => ?and, rfl, frameBut_aluBinary s a b _⟩,
    ⟨_, exec_or a b s, fun k _ => ?or, rfl, frameBut_aluBinary s a b _⟩,
    ⟨_, exec_xor a b s, fun k _ => ?xor, rfl, frameBut_aluBinary s a b _⟩,
    _, exec_not a s, ?not, rfl, frameBut_aluUnary s a _⟩
  case and => rw [aluBinary_x_self, narrow_andValue, BitVec.getLsbD_and]
  case or => rw [aluBinary_x_self, narrow_orValue, BitVec.getLsbD_or]
  case xor => rw [aluBinary_x_self, narrow_xorValue, BitVec.getLsbD_xor]
  case not => rw [aluUnary_x_self, narrow_notValue_toNat]

/-- Settles O48: one shape, a narrowed write of operand A, whose frame keeps FL. -/
theorem incDecResult : Obligations.IncDecResult := by
  refine fun a s => ⟨rfl, rfl, ⟨_, exec_inc a s, ?inc, rfl, frameBut_aluUnary s a _⟩,
    _, exec_dec a s, ?dec, rfl, frameBut_aluUnary s a _⟩
  case inc => rw [aluUnary_x_self, narrow_incValue_toNat]
  case dec => rw [aluUnary_x_self]; exact narrow_toNat _

/-- Settles O49, by the bits of `cmpFlags`. `FrameBut` asks for the old FL, so it holds of the advance after
the write of FL, which touches nothing else. -/
theorem cmpResult : Obligations.CmpResult := by
  intro a b s
  obtain ⟨hequal, hgreater, hless⟩ := getLsbD_cmpFlags_low s.fl (s.x a) (s.x b)
  obtain ⟨hx, -, hcontrol, hmem⟩ := (s.setFl (cmpFlags s.fl (s.x a) (s.x b))).frameBut_advance 3
  exact ⟨rfl, _, exec_cmp a b s, hequal, hgreater, hless, fun _ hk => getLsbD_cmpFlags_of_ge _ _ _ hk,
    lowFlagCount_cmpFlags _ _ _, rfl, hx, hcontrol, hmem⟩

end Sys2Proof.Machine
end

section
/-!
SUPPORT. The bit of a line, the line that is taken, the state a dispatch leaves and the frame IRET finds, and
the obligations of 60_exceptions.md on interrupts (R201 to R209).
-/

namespace Sys2Proof.Machine

/-! ### The bit of a line (R203, R206) -/

theorem getLsbD_lineBit (i : Line) (k : Nat) : (lineBit i).getLsbD k = decide (k = i.val) := by
  rw [lineBit, ← BitVec.twoPow_eq, BitVec.getLsbD_twoPow, decide_eq_true i.isLt, Bool.true_and]
  exact decide_eq_decide.mpr eq_comm

theorem getLsbD_clear_lineBit (is : Byte) (i : Line) {k : Nat} (hk : k < 8) :
    (is &&& ~~~(lineBit i)).getLsbD k = (is.getLsbD k && decide (k ≠ i.val)) := by
  rw [BitVec.getLsbD_and, BitVec.getLsbD_not, getLsbD_lineBit, decide_eq_true hk, Bool.true_and,
    decide_not]

theorem State.raiseLine_of_running {s : State} (hrun : s.run = .running) (i : Line) :
    s.raiseLine i = s.setX .r6 (s.x .r6 ||| lineBit i) := by
  rw [State.raiseLine, hrun]

theorem State.raiseLine_of_not_running {s : State} (hrun : s.run ≠ .running) (i : Line) :
    s.raiseLine i = s := by
  unfold State.raiseLine
  split
  · next h => exact absurd h hrun
  all_goals rfl

/-- Settles O6: while Running the raise is one register write, so it has the frame of one. -/
theorem raiseSetsOnePendingBit : Obligations.RaiseSetsOnePendingBit := by
  refine fun s i => ⟨fun hrun => ?_, fun hrun => State.raiseLine_of_not_running hrun i⟩
  rw [State.raiseLine_of_running hrun]
  refine ⟨fun k _ => ?_, s.frameBut_setX .r6 _, rfl⟩
  rw [State.setX_x_self, BitVec.getLsbD_or, getLsbD_lineBit, Bool.or_comm]

/-! ### The line that is taken (R201, R205) -/

theorem State.TakesLine.unique {s : State} {i j : Line} (hi : s.TakesLine i) (hj : s.TakesLine j) :
    j = i := by
  obtain ⟨-, hline⟩ := hi
  obtain ⟨-, hline'⟩ := hj
  exact Option.some.inj (((lowestLine_eq_some_iff _ j).mpr hline').symm.trans
    ((lowestLine_eq_some_iff _ i).mpr hline))

theorem State.exists_takesLine_of_not_quiet {s : State} (h : ¬ s.Quiet) : ∃ i, s.TakesLine i := by
  obtain ⟨hie, hpending⟩ := not_or.mp h
  obtain ⟨i, hi⟩ := Option.ne_none_iff_exists'.mp (mt (lowestLine_eq_none_iff s.pending).mp hpending)
  exact ⟨i, Bool.eq_true_of_not_eq_false hie, (lowestLine_eq_some_iff s.pending i).mp hi⟩

/-- Settles O50: the scan of `lowestLine` answers with exactly the line that is taken. -/
theorem lowestEnabledLineIsTaken : Obligations.LowestEnabledLineIsTaken := by
  refine fun s => ⟨interruptPhase_of_quiet, fun h => ?_⟩
  obtain ⟨i, hi⟩ := State.exists_takesLine_of_not_quiet h
  exact ⟨i, hi, interruptPhase_of_takesLine hi, fun j => hi.unique⟩

/-! ### The state a dispatch leaves (R206, R207) -/

/-- R6 with the bit of the dispatched line cleared. -/
def State.r6Without (s : State) (i : Line) : Byte := s.x .r6 &&& ~~~(lineBit i)

/-- The nine values pushed, first to last. -/
def State.frameValues (s : State) (i : Line) : List Nat :=
  [s.pc.toNat, s.fl.toNat, (s.x .r0).toNat, (s.x .r1).toNat, (s.x .r2).toNat, (s.x .r3).toNat,
    (s.x .r4).toNat, (s.x .r5).toNat, (s.r6Without i).toNat]

/-- The answer of `enterInterrupt`, by name. -/
def State.dispatched (s : State) (i : Line) : State :=
  let m := frameMem s.mem (s.x .r7) (s.frameValues i)
  ((((s.setIe false).setX .r6 (s.r6Without i)).setX .r7 (s.x .r7 - 9#8)).setMem m).jumpTo
    (Memory.get m (Config.vecBase + i.val))

theorem interruptPhase_eq_dispatched {s : State} {i : Line} (h : s.TakesLine i) :
    interruptPhase s = .ok (s.dispatched i) :=
  (interruptPhase_of_takesLine h).trans (enterInterrupt_eq s i)

theorem State.sameRegsBut_dispatched (s : State) (i : Line) :
    SameRegsBut [.r6, .r7] s (s.dispatched i) :=
  ((s.setIe false).frameBut_setX .r6 _ |>.trans (State.frameBut_setX _ .r7 _)).1

/-- The cell `k + 1` below SP holds the value pushed after `k` others. -/
theorem State.get_dispatched_frameAddr {s : State} {i : Line} {k v : Nat}
    (hv : (s.frameValues i)[k]? = some v) :
    Memory.get (s.dispatched i).mem (frameAddr s (k + 1)) = BitVec.ofNat 8 v := by
  obtain ⟨hk, rfl⟩ := List.getElem?_eq_some_iff.mp hv
  exact frameMem_get_at _ s.mem (s.x .r7) (k + 1) k.succ_pos hk (Nat.le_of_ble_eq_true rfl)

theorem State.get_dispatched_frameAddr_byte {s : State} {i : Line} {k : Nat} {b : Byte}
    (hb : (s.frameValues i)[k]? = some b.toNat) :
    Memory.get (s.dispatched i).mem (frameAddr s (k + 1)) = b := by
  rw [State.get_dispatched_frameAddr hb, BitVec.ofNat_toNat, BitVec.setWidth_eq]

theorem State.sameMemoryBut_dispatched (s : State) (i : Line) :
    SameMemoryBut ((List.range 9).map fun k => frameAddr s (k + 1)) s (s.dispatched i) := by
  refine fun a ha => frameMem_get_ne _ s.mem (s.x .r7) a fun j hj hle haj => ha ?_
  obtain ⟨k, rfl⟩ := Nat.exists_eq_add_of_le' hj
  exact List.mem_map.mpr ⟨k, List.mem_range.mpr hle, haj.symm⟩

/-- Settles O51: each byte of the frame is read off `State.frameValues` at its place. -/
theorem interruptEntry : Obligations.InterruptEntry := by
  intro s i hline
  refine ⟨_, interruptPhase_eq_dispatched hline, rfl, ?bit, rfl, s.sameRegsBut_dispatched i, ?pc, ?_, ?_, ?_,
    ?_, ?_, ?_, ?_, ?_, s.sameMemoryBut_dispatched i, State.jumpTo_pc_toNat _ _, rfl, rfl, rfl⟩
  case bit => exact fun k hk => getLsbD_clear_lineBit (s.x .r6) i hk
  case pc => exact (State.get_dispatched_frameAddr rfl).trans (byte_ofNat_mod _).symm
  all_goals exact State.get_dispatched_frameAddr_byte rfl

/-! ### Back from the handler (R209) -/

/-- `n` cells above the SP a dispatch left is `k` cells below the SP before it. -/
theorem frameAddr_of_add_eq_nine (s : State) {n k : Nat} (h : k + n = 9) :
    (s.x .r7 - 9 + BitVec.ofNat 8 n).toNat = frameAddr s k := by
  have h9 : (9 : Byte) = BitVec.ofNat 8 k + BitVec.ofNat 8 n := by rw [← BitVec.ofNat_add, h]; rfl
  rw [h9, ← BitVec.sub_sub, BitVec.sub_add_cancel, frameAddr]

/-- What a handler owes IRET: SP and the nine bytes of the frame as the dispatch left them. -/
def State.KeepsFrame (s : State) (i : Line) (u : State) : Prop :=
  u.x .r7 = (s.dispatched i).x .r7 ∧
    ∀ k, 1 ≤ k → k ≤ 9 →
      Memory.get u.mem (frameAddr s k) = Memory.get (s.dispatched i).mem (frameAddr s k)

theorem State.KeepsFrame.get_popped {s u : State} {i : Line} (hu : s.KeepsFrame i u) {n k v : Nat}
    (h : k + 1 + n = 9) (hv : (s.frameValues i)[k]? = some v) :
    Memory.get u.mem (u.x .r7 + BitVec.ofNat 8 n).toNat = BitVec.ofNat 8 v := by
  obtain ⟨hsp, hframe⟩ := hu
  have haddr : (u.x .r7 + BitVec.ofNat 8 n).toNat = frameAddr s (k + 1) :=
    hsp ▸ frameAddr_of_add_eq_nine s h
  rw [haddr, hframe (k + 1) k.succ_pos (by omega), State.get_dispatched_frameAddr hv]

theorem State.KeepsFrame.get_popped_byte {s u : State} {i : Line} (hu : s.KeepsFrame i u) {n k : Nat}
    {b : Byte} (h : k + 1 + n = 9) (hb : (s.frameValues i)[k]? = some b.toNat) :
    Memory.get u.mem (u.x .r7 + BitVec.ofNat 8 n).toNat = b := by
  rw [hu.get_popped h hb, BitVec.ofNat_toNat, BitVec.setWidth_eq]

/-- Settles O52: IRET pops the frame in the reverse order of the pushes, so each piece it loads is the one the
dispatch saved. -/
theorem interruptThenIretRestores : Obligations.InterruptThenIretRestores := by
  intro s t u i hline ht hsp hframe
  obtain rfl : s.dispatched i = t := Except.ok.inj ((interruptPhase_eq_dispatched hline).symm.trans ht)
  have hu : s.KeepsFrame i u := ⟨hsp, hframe⟩
  obtain ⟨v, hv, h6, h5, h4, h3, h2, h1, h0, hfl, hpc, h7, hie, hrun, hout, hmem⟩ := iretResult.2 u
  refine ⟨v, hv, ?regs, ?bit, hfl.trans (hu.get_popped_byte rfl rfl), ?pc, hie, hrun, hout, hmem⟩
  case regs =>
    intro r hr
    cases r with
    | r0 => exact h0.trans (hu.get_popped_byte rfl rfl)
    | r1 => exact h1.trans (hu.get_popped_byte rfl rfl)
    | r2 => exact h2.trans (hu.get_popped_byte rfl rfl)
    | r3 => exact h3.trans (hu.get_popped_byte rfl rfl)
    | r4 => exact h4.trans (hu.get_popped_byte rfl rfl)
    | r5 => exact h5.trans (hu.get_popped_byte rfl rfl)
    | r6 => exact absurd rfl hr
    | r7 => rw [h7, hsp]; exact BitVec.sub_add_cancel (s.x .r7) 9
  case bit =>
    have hr6 : v.x .r6 = s.r6Without i := by
      rw [h6, ← BitVec.add_zero (u.x .r7)]
      exact hu.get_popped_byte rfl rfl
    intro k hk
    rw [hr6, State.r6Without, getLsbD_clear_lineBit _ _ hk]
  case pc =>
    have h8 : Memory.get u.mem (u.x .r7 + 8).toNat = BitVec.ofNat 8 s.pc.toNat := hu.get_popped rfl rfl
    rw [hpc, h8, BitVec.toNat_ofNat]

end Sys2Proof.Machine
end

section
/-!
SUPPORT. The instruction phase that follows the interrupt phase in one step, and the obligations of
60_exceptions.md on the step that dispatches and on the precision of faults (R195, R208).
-/

namespace Sys2Proof

theorem Instr.operandCount_le (i : Instr) : i.operandCount ≤ 2 := by
  cases i <;> simp [Instr.operandCount]

end Sys2Proof

namespace Sys2Proof.Machine

/-! ### The instruction phase after the interrupt phase (R208) -/

theorem step_of_interruptPhase {s t : State} (hrun : s.run = .running) (h : interruptPhase s = .ok t) :
    step s = instructionPhase t := by
  simp [step, trigger, hrun, h]

/-- Bytes in memory at the pc that are an instruction's encoding are fetched as that instruction. -/
theorem fetch_of_decode {s : State} {i : Instr} {bytes : List Byte} (hbytes : BytesAt s s.pc.toNat bytes)
    (hin : s.pc.toNat + bytes.length ≤ Config.memSize) (hdec : decode bytes = .ok (i, [])) :
    fetch s = .ok i := by
  obtain rfl : bytes = i.opcode :: i.operandBytes := by simpa [encode] using encode_append_of_decode hdec
  obtain ⟨hop, hoperands⟩ := bytesAt_cons.mp hbytes
  have hne : i.operandCount ≠ 3 := (i.operandCount_le.trans_lt (by decide)).ne
  rw [List.length_cons] at hin
  have hread : readBytes s (s.pc.toNat + 1) i.operandCount = .ok i.operandBytes :=
    i.length_operandBytes ▸ readBytes_of_bytesAt hoperands (by omega)
  simp [fetch, memRead_ok s (a := s.pc.toNat) (by omega), hop, hne, hread, hdec]

/-- Settles O10: the dispatch decides the state in which the instruction phase begins, and nothing more of the
step. -/
theorem dispatchingStepRunsHandlerInstruction : Obligations.DispatchingStepRunsHandlerInstruction := by
  intro s t i j bytes hrun _ hphase hbytes hin hdec
  rw [step_of_interruptPhase hrun hphase, instructionPhase, fetch_of_decode hbytes hin hdec]

/-! ### What a fault leaves (R190, R195) -/

theorem bind_eq_error_iff {α β : Type} {r : Except Fault α} {g : α → Except Fault β} {f : Fault} :
    r.bind g = .error f ↔ r = .error f ∨ ∃ a, r = .ok a ∧ g a = .error f := by
  cases r <;> simp

theorem pcOf_of_memRead_error {s : State} {addr : Nat} {f : Fault} (h : memRead s addr = .error f) :
    f.pcOf = s.pc := by
  unfold memRead at h
  split at h
  · exact (Except.error.inj h) ▸ rfl
  · cases h

theorem pcOf_of_readBytes_error {s : State} {addr n : Nat} {f : Fault}
    (h : readBytes s addr n = .error f) : f.pcOf = s.pc := by
  induction n generalizing addr with
  | zero => cases h
  | succ n ih =>
    obtain h | ⟨b, -, h⟩ := bind_eq_error_iff.mp h
    · exact pcOf_of_memRead_error h
    · obtain h | ⟨bs, -, h⟩ := bind_eq_error_iff.mp h
      · exact ih h
      · cases h

theorem pcOf_of_fetch_error {s : State} {f : Fault} (h : fetch s = .error f) : f.pcOf = s.pc := by
  obtain h | ⟨op, -, h⟩ := bind_eq_error_iff.mp h
  · exact pcOf_of_memRead_error h
  · split at h
    · exact (Except.error.inj h) ▸ rfl
    · obtain h | ⟨operands, -, h⟩ := bind_eq_error_iff.mp h
      · exact pcOf_of_readBytes_error h
      · split at h
        · cases h
        · exact (Except.error.inj h) ▸ rfl

/-- RUN is kept, or HLT halts, or a fault is taken; a fault that is taken is the whole effect. -/
theorem exec_run_cases {i : Instr} {s t : State} (h : exec i s = .next t) :
    t.run = s.run ∨ (i = .hlt ∧ t.run = .halted) ∨ ∃ f, t = s.takeFault f ∧ f.pcOf = s.pc := by
  cases i
  case hlt =>
    rw [exec_hlt] at h
    exact .inr (.inl ⟨rfl, Host.Outcome.next.inj h ▸ rfl⟩)
  case iret =>
    rw [exec_iret, leaveInterrupt_eq] at h
    exact .inl (Host.Outcome.next.inj h ▸ rfl)
  case div | mod =>
    obtain ⟨-, rfl⟩ | ⟨-, rfl⟩ := endPhase_aluDivide_cases h
    · exact .inr (.inr ⟨_, rfl, rfl⟩)
    · exact .inl rfl
  case jeq | jne | jlt | jgt =>
    obtain ⟨-, rfl⟩ | ⟨-, rfl⟩ := endPhase_condJump_cases h
    · exact .inr (.inr ⟨_, rfl, rfl⟩)
    · left; split <;> rfl
  all_goals
    simp only [exec_nop, exec_ret, exec_pra, exec_prn, exec_int, exec_pop, exec_push, exec_not, exec_inc,
      exec_dec, exec_call, exec_jmp, exec_cmp, exec_add, exec_sub, exec_mul, exec_or, exec_xor, exec_and,
      exec_ld, exec_ldi, exec_st, Host.Outcome.next.injEq] at h
    subst h
    exact .inl rfl

theorem exists_interruptPhase_eq_ok (s : State) : ∃ u, interruptPhase s = .ok u ∧ u.run = s.run := by
  by_cases hq : s.Quiet
  · exact ⟨s, interruptPhase_of_quiet hq, rfl⟩
  · obtain ⟨i, hi⟩ := State.exists_takesLine_of_not_quiet hq
    exact ⟨_, interruptPhase_eq_dispatched hi, rfl⟩

theorem instructionPhase_fault {u t : State} {f : Fault} (hrun : u.run = .running)
    (h : instructionPhase u = .next t) (hf : t.run = .faulted f) : t = u.takeFault f ∧ f.pcOf = u.pc := by
  obtain ⟨g, rfl, hpc⟩ : ∃ g, t = u.takeFault g ∧ g.pcOf = u.pc := by
    unfold instructionPhase at h
    split at h
    · obtain hkeep | ⟨-, hhalt⟩ | hfault := exec_run_cases h
      · simp [hkeep, hrun] at hf
      · simp [hhalt] at hf
      · exact hfault
    · next g hg => exact ⟨g, (Host.Outcome.next.inj h).symm, pcOf_of_fetch_error hg⟩
  obtain rfl : g = f := RunState.faulted.inj hf
  exact ⟨rfl, hpc⟩

/-- Settles O15: the interrupt phase always answers, so the fault is one of the instruction phase. -/
theorem faultsArePrecise : Obligations.FaultsArePrecise := by
  intro s t f hrun hstep hf
  obtain ⟨u, hu, hkeep⟩ := exists_interruptPhase_eq_ok s
  rw [step_of_interruptPhase hrun hu] at hstep
  exact ⟨u, hu, instructionPhase_fault (hkeep.trans hrun) hstep hf⟩

end Sys2Proof.Machine
end

section
/-!
SUPPORT. The encoder read back by the decoder and by the reading of a table word, and the obligations of
30_encoding.md on the two (R60 to R75).
-/

namespace Sys2Proof

/-! ### A row of the opcode map, on its encoded operands (R62, R66) -/

@[simp] theorem Reg.ofByte_toByte (r : Reg) : Reg.ofByte r.toByte = some r := by
  cases r <;> rfl

@[simp] theorem regOperand_toByte (op : Byte) (r : Reg) : regOperand op r.toByte = .ok r := by
  simp [regOperand]

theorem buildInstr_reg (op : Byte) (f : Reg → Instr) (a : Reg) (rest : List Byte) :
    buildInstr op (.reg f) (a.toByte :: rest) = .ok (f a, rest) := by
  simp [buildInstr]

theorem buildInstr_regReg (op : Byte) (f : Reg → Reg → Instr) (a b : Reg) (rest : List Byte) :
    buildInstr op (.regReg f) (a.toByte :: b.toByte :: rest) = .ok (f a b, rest) := by
  simp [buildInstr]

theorem buildInstr_regImm (op : Byte) (f : Reg → Byte → Instr) (a : Reg) (imm : Byte) (rest : List Byte) :
    buildInstr op (.regImm f) (a.toByte :: imm :: rest) = .ok (f a imm, rest) := by
  simp [buildInstr]

/-- The row of `i.opcode` builds `i` from `i`'s own operand bytes, by the kind of the row. -/
theorem exists_lookupShape_opcode (i : Instr) (rest : List Byte) :
    ∃ sh, lookupShape i.opcode opcodeMap = some sh ∧
      buildInstr i.opcode sh (i.operandBytes ++ rest) = .ok (i, rest) := by
  cases i
  case nop | hlt | ret | iret => exact ⟨_, rfl, rfl⟩
  case ldi a imm => exact ⟨_, rfl, buildInstr_regImm _ .ldi a imm rest⟩
  case pra | prn | int | pop | push | not | inc | dec | call | jmp | jeq | jne | jlt | jgt =>
    exact ⟨_, rfl, buildInstr_reg _ _ _ rest⟩
  all_goals exact ⟨_, rfl, buildInstr_regReg _ _ _ _ rest⟩

/-- Settles O2: the first two refusals are excluded by the operand count, and the row of the opcode builds
the instruction. -/
theorem decodeEncodeRoundTrip : Obligations.DecodeEncodeRoundTrip := by
  intro i rest
  obtain ⟨sh, hrow, hbuild⟩ := exists_lookupShape_opcode i rest
  have hthree : i.operandCount ≠ 3 := (i.operandCount_le.trans_lt (by decide)).ne
  simp [encode, decode, hthree, hrow, hbuild]

theorem decode_encode (i : Instr) : decode (encode i) = .ok (i, []) := by
  simpa using decodeEncodeRoundTrip i []

/-- Settles O3. -/
theorem decodedBytesAreTheEncoding : Obligations.DecodedBytesAreTheEncoding :=
  fun _ _ _ => encode_append_of_decode

/-- Settles O1: the accepted words are encodings; the refusals are evaluated. -/
theorem specWordsDecode : Obligations.SpecWordsDecode :=
  ⟨decode_encode (.ldi .r0 8), decode_encode (.prn .r0), decode_encode .hlt, decode_encode (.push .r7),
    decode_encode (.jmp .r2), decode_encode .iret, decode_encode (.div .r3 .r5), rfl, rfl, rfl⟩

/-! ### Words of the opcode table (R75) -/

/-- The digits of `acc` to base 256, followed by `bytes`, as one number. -/
def wordOfBytes (acc : Nat) (bytes : List Byte) : Nat := bytes.foldl (fun n b => 256 * n + b.toNat) acc

theorem wordOfBytes_cons (acc : Nat) (b : Byte) (bytes : List Byte) :
    wordOfBytes acc (b :: bytes) = wordOfBytes (256 * acc + b.toNat) bytes := rfl

theorem wordOfBytes_div (acc : Nat) (bytes : List Byte) :
    wordOfBytes acc bytes / 256 ^ bytes.length = acc := by
  induction bytes generalizing acc with
  | nil => exact Nat.div_one acc
  | cons b bytes ih =>
    have hb := b.isLt
    rw [wordOfBytes_cons, List.length_cons, Nat.pow_succ, ← Nat.div_div_eq_div_mul, ih]
    omega

theorem bytesOfWord_wordOfBytes (acc : Nat) (bytes : List Byte) :
    bytesOfWord bytes.length (wordOfBytes acc bytes) = bytes := by
  induction bytes generalizing acc with
  | nil => rfl
  | cons b bytes ih =>
    have hhead : BitVec.ofNat 8 (256 * acc + b.toNat) = b := by
      rw [← Machine.byte_ofNat_mod]
      simp
    rw [wordOfBytes_cons, List.length_cons, bytesOfWord, wordOfBytes_div, hhead, ih]

@[simp] theorem Instr.length_encode (i : Instr) : (encode i).length = i.length := by
  obtain ⟨-, -, hlen⟩ := Laws.OpcodeShape.all i
  exact hlen

/-- Settles O4: the table word's bytes are the encoding and the zero bytes filled in behind it. -/
theorem tableWordsDecode : Obligations.TableWordsDecode := by
  intro i
  have hlen : (8 * i.length + 7) / 8 = (encode i).length := by
    rw [i.length_encode]
    omega
  have hbytes : bytesOfWord ((8 * i.length + 7) / 8) (wordOfBytes 0 (encode i)) = encode i :=
    hlen ▸ bytesOfWord_wordOfBytes 0 (encode i)
  show decodeTableWord _ (wordOfBytes 0 (encode i)) = some i
  rw [decodeTableWord, tableWordBytes, hbytes, decodeEncodeRoundTrip]

theorem exists_tableWordBytes_eq {nbits w : Nat} {i : Instr} (h : decodeTableWord nbits w = some i) :
    ∃ rest, tableWordBytes nbits w = encode i ++ rest := by
  unfold decodeTableWord at h
  split at h
  · next j rest hdec =>
    cases h
    exact ⟨rest, encode_append_of_decode hdec⟩
  · cases h

end Sys2Proof
end

section
/-!
SUPPORT. What can happen in a step, its fetch included, and the obligations of 40_execution_cycle.md and
20_memory.md on the instruction that the next step runs (R53, R80 to R89).
-/

namespace Sys2Proof.Machine

/-! ### The terminal states (R89) -/

/-- Settles O7. -/
theorem terminalStatesAreFrozen : Obligations.TerminalStatesAreFrozen := by
  intro s hrun
  unfold step trigger
  split
  · next h => exact absurd h hrun
  all_goals rfl

/-! ### Every answer is a next state (R92, R194) -/

/-- Every meaning is the end of a phase; where the phase cannot fault, `exec` reduces to the state it leaves. -/
theorem exists_exec_eq_next (i : Instr) (s : State) : ∃ t, exec i s = .next t := by
  cases i
  case ret | iret | pop | push | call | jeq | jne | jlt | jgt | div | mod | ld | st => exact endPhase_next s _
  all_goals exact ⟨_, rfl⟩

theorem exists_instructionPhase_eq_next (s : State) : ∃ t, instructionPhase s = .next t := by
  unfold instructionPhase
  split
  · exact exists_exec_eq_next _ s
  · exact endPhase_next s _

/-- Settles O11: in a running state the interrupt phase always answers, and the instruction phase after it. -/
theorem everyStepAnswersNext : Obligations.EveryStepAnswersNext := by
  intro s
  by_cases hrun : s.run = .running
  · obtain ⟨u, hu, -⟩ := exists_interruptPhase_eq_ok s
    rw [step_of_interruptPhase hrun hu]
    exact exists_instructionPhase_eq_next u
  · exact ⟨s, terminalStatesAreFrozen s hrun⟩

/-! ### What a step can do -/

theorem interruptPhase_cases {s u : State} (h : interruptPhase s = .ok u) :
    u = s ∨ ∃ i, u = s.dispatched i := by
  by_cases hq : s.Quiet
  · exact .inl (Except.ok.inj (h.symm.trans (interruptPhase_of_quiet hq)))
  · obtain ⟨i, hi⟩ := State.exists_takesLine_of_not_quiet hq
    exact .inr ⟨i, Except.ok.inj (h.symm.trans (interruptPhase_eq_dispatched hi))⟩

theorem instructionPhase_cases {u t : State} (h : instructionPhase u = .next t) :
    (∃ i, fetch u = .ok i ∧ exec i u = .next t) ∨ ∃ f, fetch u = .error f ∧ t = u.takeFault f := by
  unfold instructionPhase at h
  split at h
  · next i hi => exact .inl ⟨i, hi, h⟩
  · next f hf => exact .inr ⟨f, hf, (Host.Outcome.next.inj h).symm⟩

/-- A trigger that is ignored, or the interrupt phase and the instruction phase after it. -/
theorem step_cases {s t : State} (h : step s = .next t) :
    t = s ∨ (s.run = .running ∧ ∃ u, (u = s ∨ ∃ i, u = s.dispatched i) ∧ instructionPhase u = .next t) := by
  by_cases hrun : s.run = .running
  · obtain ⟨u, hu, -⟩ := exists_interruptPhase_eq_ok s
    rw [step_of_interruptPhase hrun hu] at h
    exact .inr ⟨hrun, u, interruptPhase_cases hu, h⟩
  · exact .inl (Host.Outcome.next.inj (h.symm.trans (terminalStatesAreFrozen s hrun)))

/-! ### A fetch beyond memory (R82, R83) -/

/-- The first address beyond memory is the one the fault records. -/
theorem readBytes_of_memSize_lt {s : State} {addr n : Nat} (haddr : addr ≤ Config.memSize)
    (hout : Config.memSize < addr + n) :
    readBytes s addr n = .error (.outOfBounds s.pc Config.memSize) := by
  induction n generalizing addr with
  | zero => omega
  | succ n ih =>
    obtain hin | rfl := haddr.lt_or_eq
    · rw [readBytes, memRead_ok s hin, bind_ok, ih hin (by omega), bind_error]
    · rw [readBytes, memRead_error s le_rfl, bind_error]

/-- Settles O14: the one fault is of the opcode's read, the other of the first operand byte beyond memory,
before the opcode is looked up. -/
theorem fetchBeyondMemoryFaults : Obligations.FetchBeyondMemoryFaults := by
  refine fun s hrun hq => ⟨fun hpc => ?opcode, fun n hn hcount hpc hout => ?operands⟩
  all_goals refine step_of_fetch_error hrun hq ?_
  case opcode => rw [fetch, memRead_error s hpc, bind_error]
  case operands =>
    have hread := readBytes_of_memSize_lt (s := s) (n := n) hpc
      (show Config.memSize < s.pc.toNat + 1 + n by rw [Config.memSize]; omega)
    rw [fetch, memRead_ok s hpc, bind_ok, hcount, if_neg (by omega), hread, bind_error]
    rfl

/-! ### The instruction at the pc (R80 to R86) -/

/-- Settles O9. -/
theorem stepRunsDecodedInstruction : Obligations.StepRunsDecodedInstruction := by
  intro s i bytes hrun hq hbytes hin hdec
  rw [step_of_quiet hrun hq, instructionPhase, fetch_of_decode hbytes hin hdec]

/-- The bytes of a load that lie in memory are there, whatever becomes of the bytes after them. -/
theorem bytesAt_of_mem_eq_storeBytes {s : State} {m : Memory} {addr : Nat} {bytes rest : List Byte}
    (hmem : s.mem = storeBytes m addr (bytes ++ rest)) (hin : addr + bytes.length ≤ Config.memSize) :
    BytesAt s addr bytes := by
  intro k hk
  have hcell : addr ≤ addr + k ∧ addr + k - addr < (bytes ++ rest).length ∧ addr + k < Config.memSize := by
    rw [List.length_append]
    omega
  rw [hmem, Memory.get_storeBytes, dif_pos hcell]
  simp [List.getElem_append_left, hk]

/-- IE stays set only where no unmasked line is pending. -/
theorem State.quiet_withFetchWord (s : State) (nbits w : Nat) : (s.withFetchWord nbits w).Quiet := by
  by_cases hp : s.pending = 0
  · exact .inr hp
  · left
    show (s.ie && decide (s.pending = 0)) = false
    rw [decide_eq_false hp, Bool.and_false]

/-- Settles O8: the word's bytes begin with the encoding of `i`, which decodes to `i` with nothing left over. -/
theorem placedWordIsTheNextInstruction : Obligations.PlacedWordIsTheNextInstruction := by
  intro s nbits w i hword hfits
  obtain ⟨rest, hbytes⟩ := exists_tableWordBytes_eq hword
  have hin : s.pc.toNat + (encode i).length ≤ Config.memSize := by
    rw [i.length_encode]
    exact of_decide_eq_true hfits
  have hmem : (s.withFetchWord nbits w).mem = storeBytes s.mem s.pc.toNat (encode i ++ rest) := by
    rw [← hbytes]
    rfl
  exact stepRunsDecodedInstruction _ i (encode i) rfl (s.quiet_withFetchWord nbits w)
    (bytesAt_of_mem_eq_storeBytes hmem hin) hin (decode_encode i)

/-- Settles O33: ST changes one cell and the pc only, so the next step is one of a quiet running machine with
the stored byte at its pc. -/
theorem storedInstructionRunsNext : Obligations.StoredInstructionRunsNext := by
  intro a b i s t hst hrun hq hpc hencode
  obtain ⟨-, t', hst', hstored, -, hx, -, ⟨hie, hrun', -⟩, -⟩ := stResult a b s
  obtain rfl : t' = t := Host.Outcome.next.inj (hst'.symm.trans hst)
  have hq' : t'.Quiet := by
    rwa [State.Quiet, hie, hx _ List.not_mem_nil, hx _ List.not_mem_nil]
  have hbytes : BytesAt t' t'.pc.toNat [s.x b] :=
    bytesAt_cons.mpr ⟨hpc ▸ hstored, fun k hk => absurd hk k.not_lt_zero⟩
  have hin : t'.pc.toNat < Config.memSize := hpc ▸ byte_lt_memSize (s.x a)
  exact stepRunsDecodedInstruction t' i [s.x b] (hrun'.trans hrun) hq' hbytes hin
    (hencode ▸ decode_encode i)

end Sys2Proof.Machine
end

section
/-!
SUPPORT. Everything that executing an instruction can do, said once for every instruction, and the obligations
on what an instruction may write (R14, R21, R24, R26, R27, R41, R86).
-/

namespace Sys2Proof.Machine

/-! ### The faults and the effects of an instruction -/

/-- The fault `i` raises in `s`: DIV and MOD on a zero divisor, the conditional jumps on a flag violation
(60_exceptions.md R192, R196). -/
def RaisesFault (i : Instr) (s : State) (f : Fault) : Prop :=
  (f = .divideByZero s.pc i.opcode ∧ ∃ a b, (i = .div a b ∨ i = .mod a b) ∧ s.x b = 0) ∨
  (f = .flagInvariant s.pc i.opcode s.fl ∧ 1 < lowFlagCount s.fl ∧
    ∃ a, i = .jeq a ∨ i = .jne a ∨ i = .jgt a ∨ i = .jlt a)

/-- What `i`, without a fault, can make of each piece of the state, IE excepted (`exec_ie_of_ne_iret`). Each
field defaults to the usual case: the piece is kept, and the pc advances by the length. -/
structure ExecEffect (i : Instr) (s t : State) : Prop where
  regs : SameRegsBut (writtenRegs i) s t := by exact fun _ _ => rfl
  fl : t.fl = s.fl ∨ i = .iret ∨ ∃ a b, i = .cmp a b ∧ t.fl = cmpFlags s.fl (s.x a) (s.x b) := by
    exact .inl rfl
  out : t.out = s.out ∨ ∃ a e, (i = .prn a ∨ i = .pra a) ∧ t.out = s.out ++ [e] := by exact .inl rfl
  mem : t.mem = s.mem ∨ ∃ addr ∈ writtenCells i s, ∃ b, t.mem = Memory.set s.mem addr b := by exact .inl rfl
  run : t.run = s.run ∨ i = .hlt ∧ t.run = .halted := by exact .inl rfl
  pc : t.pc = s.pc + BitVec.ofNat 9 i.length ∨ i.setsPc = true ∧ ∃ b : Byte, t.pc = b.setWidth 9 := by
    exact .inl rfl

theorem mem_writtenRegs_iret (r : Reg) : r ∈ writtenRegs .iret := by
  cases r <;> decide

/-- The fault is the whole effect where there is one; else the closed form of the instruction is read off
piece by piece. -/
theorem exec_cases {i : Instr} {s t : State} (h : exec i s = .next t) :
    (∃ f, RaisesFault i s f ∧ t = s.takeFault f) ∨ ExecEffect i s t := by
  cases i
  case div a b | mod a b =>
    obtain ⟨hb, rfl⟩ | ⟨-, rfl⟩ := endPhase_aluDivide_cases h
    · exact .inl ⟨_, .inl ⟨rfl, a, b, by simp, hb⟩, rfl⟩
    · exact .inr { regs := (s.frameBut_writeX a _).1 }
  case jeq a | jne a | jlt a | jgt a =>
    obtain ⟨hfl, rfl⟩ | ⟨-, rfl⟩ := endPhase_condJump_cases h
    · exact .inl ⟨_, .inr ⟨rfl, (flagViolation_iff s.fl).mp hfl, a, by simp⟩, rfl⟩
    · right
      split
      · exact { pc := .inr ⟨rfl, _, rfl⟩ }
      · exact {}
  all_goals
    right
    simp only [exec_nop, exec_hlt, exec_ret, exec_iret, leaveInterrupt_eq, endPhase_ok, exec_pra, exec_prn,
      exec_int, exec_pop, exec_push, exec_not, exec_inc, exec_dec, exec_call, exec_jmp, exec_cmp, exec_add,
      exec_sub, exec_mul, exec_or, exec_xor, exec_and, exec_ld, exec_ldi, exec_st,
      Host.Outcome.next.injEq] at h
    subst h
  case nop => exact {}
  case hlt => exact { run := .inr ⟨rfl, rfl⟩ }
  case jmp => exact { pc := .inr ⟨rfl, _, rfl⟩ }
  case ret => exact { regs := (s.frameBut_setX .r7 _).1, pc := .inr ⟨rfl, _, rfl⟩ }
  case iret =>
    exact { regs := fun r hr => absurd (mem_writtenRegs_iret r) hr, fl := .inr (.inl rfl),
            pc := .inr ⟨rfl, _, rfl⟩ }
  case prn a => exact { out := .inr ⟨a, _, .inl rfl, rfl⟩ }
  case pra a => exact { out := .inr ⟨a, _, .inr rfl, rfl⟩ }
  case cmp a b => exact { fl := .inr (.inr ⟨a, b, rfl, rfl⟩) }
  case st => exact { mem := .inr ⟨_, List.mem_singleton_self _, _, rfl⟩ }
  case push =>
    exact { regs := (s.frameBut_setX .r7 _).1, mem := .inr ⟨_, List.mem_singleton_self _, _, rfl⟩ }
  case call =>
    exact { regs := (s.frameBut_setX .r7 _).1, mem := .inr ⟨_, List.mem_singleton_self _, _, rfl⟩,
            pc := .inr ⟨rfl, _, rfl⟩ }
  case pop a => exact { regs := ((s.frameBut_setX a _).trans (State.frameBut_setX _ .r7 _)).1 }
  all_goals exact { regs := (s.frameBut_setX _ _).1 }

/-! ### The obligations on single pieces of the state -/

/-- Settles O16: without a fault only HLT writes RUN. -/
theorem runChangesOnlyBy : Obligations.RunChangesOnlyBy := by
  intro i s t h hrun
  obtain ⟨f, ⟨rfl, hzero⟩ | ⟨rfl, hflags⟩, rfl⟩ | heffect := exec_cases h
  · exact .inr (.inl ⟨rfl, hzero⟩)
  · exact .inr (.inr ⟨rfl, hflags⟩)
  · exact .inl (heffect.run.resolve_left hrun)

/-- Settles O22. -/
theorem registersWrittenAsTheTableSays : Obligations.RegistersWrittenAsTheTableSays := by
  intro i s t h
  obtain ⟨f, -, rfl⟩ | heffect := exec_cases h
  · exact fun r _ => s.takeFault_x f r
  · exact heffect.regs

/-- Settles O23. -/
theorem memoryWrittenAsTheTableSays : Obligations.MemoryWrittenAsTheTableSays := by
  intro i s t h k hk
  obtain ⟨f, -, rfl⟩ | heffect := exec_cases h
  · rw [State.takeFault_mem]
  · obtain hmem | ⟨addr, haddr, b, hmem⟩ := heffect.mem
    · rw [hmem]
    · rw [hmem, Memory.get_set_ne _ _ (ne_of_mem_of_not_mem haddr hk).symm]

/-- CMP's write of FL, seen through the mask of bits 7:3. -/
theorem cmpFlags_and_upperMask (fl x y : Byte) : cmpFlags fl x y &&& 0xF8 = fl &&& 0xF8 := by
  refine BitVec.eq_of_getLsbD_eq fun k hk => ?_
  rw [BitVec.getLsbD_and, BitVec.getLsbD_and, getLsbD_upperMask hk]
  by_cases hk3 : 3 ≤ k
  · rw [getLsbD_cmpFlags_of_ge fl x y hk3]
  · rw [decide_eq_false hk3, Bool.and_false, Bool.and_false]

theorem exec_fl_cases {i : Instr} {s t : State} (h : exec i s = .next t) :
    t.fl = s.fl ∨ i = .iret ∨ ∃ a b, i = .cmp a b ∧ t.fl = cmpFlags s.fl (s.x a) (s.x b) := by
  obtain ⟨f, -, rfl⟩ | heffect := exec_cases h
  · exact .inl (s.takeFault_fl f)
  · exact heffect.fl

/-- Settles O20: of the three ways FL can come out, CMP's is the one that needs the mask; the interrupt phase
keeps FL, dispatch or not. -/
theorem flagsWrittenOnlyByCmpAndIret : Obligations.FlagsWrittenOnlyByCmpAndIret := by
  constructor
  · intro i s t h hiret
    obtain hfl | hi | ⟨a, b, rfl, hfl⟩ := exec_fl_cases h
    · exact ⟨fun _ => hfl, by rw [hfl]⟩
    · exact absurd hi hiret
    · exact ⟨fun hcmp => absurd rfl (hcmp a b), by rw [hfl, cmpFlags_and_upperMask]⟩
  · intro s t h
    obtain rfl | ⟨i, rfl⟩ := interruptPhase_cases h <;> rfl

theorem exec_out_cases {i : Instr} {s t : State} (h : exec i s = .next t) :
    t.out = s.out ∨ ∃ a e, (i = .prn a ∨ i = .pra a) ∧ t.out = s.out ++ [e] := by
  obtain ⟨f, -, rfl⟩ | heffect := exec_cases h
  · exact .inl (s.takeFault_out f)
  · exact heffect.out

/-- Settles O24: neither the interrupt phase nor the fetch touches OUT, so a step's event is that of the
instruction it executes. -/
theorem outputIsAppendOnly : Obligations.OutputIsAppendOnly := by
  constructor
  · intro s t h
    obtain rfl | ⟨-, u, hu, hphase⟩ := step_cases h
    · exact .inl rfl
    · have hout : u.out = s.out := by obtain rfl | ⟨i, rfl⟩ := hu <;> rfl
      rw [← hout]
      obtain ⟨i, -, hexec⟩ | ⟨f, -, rfl⟩ := instructionPhase_cases hphase
      · exact (exec_out_cases hexec).imp_right fun ⟨_, e, _, he⟩ => ⟨e, he⟩
      · exact .inl (u.takeFault_out f)
  · intro i s t h hi
    obtain hout | ⟨a, -, hprint, -⟩ := exec_out_cases h
    · exact hout
    · exact absurd hprint (not_or.mpr (hi a))

/-- From a place the instruction fits at, the 9 bits of the pc hold the sum. -/
theorem toNat_add_length_of_fitsAt {i : Instr} {pc : PcWord} (hfits : i.fitsAt pc.toNat = true) :
    (pc + BitVec.ofNat 9 i.length).toNat = pc.toNat + i.length := by
  have hin : pc.toNat + i.length ≤ 256 := of_decide_eq_true hfits
  rw [BitVec.toNat_add, BitVec.toNat_ofNat]
  omega

/-- Settles O25. -/
theorem autoAdvanceByLength : Obligations.AutoAdvanceByLength := by
  intro i s t h hpc
  obtain ⟨f, -, rfl⟩ | heffect := exec_cases h
  · exact .inl ⟨f, rfl⟩
  · obtain hadvance | ⟨hsets, -⟩ := heffect.pc
    · exact .inr ⟨hadvance, fun hfits => by rw [hadvance, toNat_add_length_of_fitsAt hfits]⟩
    · exact absurd (hpc.symm.trans hsets) Bool.false_ne_true

/-- Settles O53: a state with IE 0 is quiet, and only IRET writes IE. -/
theorem interruptsDoNotNest : Obligations.InterruptsDoNotNest :=
  fun _ _ _ hie => ⟨interruptPhase_of_quiet (.inl hie), fun hi h =>
    interruptPhase_of_quiet (.inl ((exec_ie_of_ne_iret h hi).trans hie))⟩

end Sys2Proof.Machine
end

section
/-!
SUPPORT. The obligations of 42_stack.md and 43_control_transfer.md on an instruction and the one that undoes it
(R114, R130), from what each of the two does.
-/

namespace Sys2Proof.Machine

theorem byte_sub_one_add_one (b : Byte) : b - 1 + 1 = b := BitVec.sub_add_cancel b 1

/-- What POP finds after PUSH: SP one lower, and there the pushed byte. -/
theorem exec_push_leaves {a : Reg} {s t : State} (h : exec (.push a) s = .next t) :
    t.x .r7 = s.x .r7 - 1 ∧
      Memory.get t.mem (t.x .r7).toNat = if a = .r7 then s.x .r7 - 1 else s.x a := by
  obtain ⟨-, t', h', hsp, hstored, -⟩ := pushResult a s
  obtain rfl : t' = t := Host.Outcome.next.inj (h'.symm.trans h)
  refine ⟨hsp, ?_⟩
  rw [hsp]
  exact hstored

/-- POP of a register other than R7, after PUSH of one: the copy, and SP back where it was. -/
theorem exec_pop_copies_pushed {a b : Reg} {s t u : State} (ha : a ≠ .r7) (hb : b ≠ .r7)
    (hpush : exec (.push a) s = .next t) (hpop : exec (.pop b) t = .next u) :
    u.x b = s.x a ∧ u.x .r7 = s.x .r7 := by
  obtain ⟨hsp, hcell⟩ := exec_push_leaves hpush
  obtain ⟨-, u', hpop', hloaded, -⟩ := popResult b t
  obtain rfl : u' = u := Host.Outcome.next.inj (hpop'.symm.trans hpop)
  obtain ⟨hb', hsp'⟩ := hloaded hb
  exact ⟨by rw [hb', hcell, if_neg ha], by rw [hsp', hsp, byte_sub_one_add_one]⟩

/-- POP R7 after PUSH R7: the loaded byte is the decremented SP, which POP then increments (D15). -/
theorem exec_pop_sp_restores {s t u : State} (hpush : exec (.push .r7) s = .next t)
    (hpop : exec (.pop .r7) t = .next u) : u.x .r7 = s.x .r7 := by
  obtain ⟨-, hcell⟩ := exec_push_leaves hpush
  obtain ⟨-, u', hpop', -, hloaded, -⟩ := popResult .r7 t
  obtain rfl : u' = u := Host.Outcome.next.inj (hpop'.symm.trans hpop)
  rw [hloaded rfl, hcell, if_pos rfl, byte_sub_one_add_one]

/-- Settles O36: the pushed register and SP by the two lemmas above, every other register by the tables of what
PUSH and POP write. -/
theorem pushPopRoundTrip : Obligations.PushPopRoundTrip := by
  intro a b s t u hpush
  refine ⟨fun hpop r => ?same, fun ha hb => exec_pop_copies_pushed ha hb hpush⟩
  have hkeep (hra : r ≠ a) (hr : r ≠ .r7) : u.x r = s.x r := by
    rw [registersWrittenAsTheTableSays _ t u hpop r (by simp [writtenRegs, hra, hr]),
      registersWrittenAsTheTableSays _ s t hpush r (by simp [writtenRegs, hr])]
  by_cases ha : a = .r7
  · subst ha
    by_cases hr : r = .r7
    · exact hr ▸ exec_pop_sp_restores hpush hpop
    · exact hkeep hr hr
  · obtain ⟨hcopy, hsp⟩ := exec_pop_copies_pushed ha ha hpush hpop
    by_cases hra : r = a
    · exact hra ▸ hcopy
    · by_cases hr : r = .r7
      · exact hr ▸ hsp
      · exact hkeep hra hr

/-- Settles O39: RET pops the byte CALL pushed. -/
theorem callReturns : Obligations.CallReturns := by
  intro a s t u v hcall hsp hkept hret
  obtain ⟨-, t', hcall', hsp', hstored, -⟩ := callResult a s
  obtain rfl : t' = t := Host.Outcome.next.inj (hcall'.symm.trans hcall)
  obtain ⟨v', hret', hpc, hspv, -⟩ := retResult.2 u
  obtain rfl : v' = v := Host.Outcome.next.inj (hret'.symm.trans hret)
  have hcell : Memory.get u.mem (u.x .r7).toNat = BitVec.ofNat 8 (s.pc.toNat + 2) := by
    rw [hsp, hkept, hsp', ← byte_ofNat_mod]
    exact hstored
  exact ⟨by rw [hpc, hcell, BitVec.toNat_ofNat], by rw [hspv, hsp, hsp', byte_sub_one_add_one]⟩

end Sys2Proof.Machine
end

section
/-!
SUPPORT. The invariant `State.Inv`, kept by every update of the state, every phase and every move of the host,
and the obligations on it (R19, R195, R251).
-/

namespace Sys2Proof.Machine

/-! ### A fetched instruction fits at the pc (R49, R82, R83) -/

theorem bind_eq_ok_iff {α β : Type} {r : Except Fault α} {g : α → Except Fault β} {b : β} :
    r.bind g = .ok b ↔ ∃ a, r = .ok a ∧ g a = .ok b := by
  cases r <;> simp

theorem lt_memSize_of_memRead {s : State} {addr : Nat} {b : Byte} (h : memRead s addr = .ok b) :
    addr < Config.memSize := by
  refine lt_of_not_ge fun hout => ?_
  rw [memRead_error s hout] at h
  cases h

theorem add_le_memSize_of_readBytes {s : State} {addr n : Nat} {bytes : List Byte}
    (haddr : addr ≤ Config.memSize) (h : readBytes s addr n = .ok bytes) : addr + n ≤ Config.memSize := by
  refine le_of_not_gt fun hout => ?_
  rw [readBytes_of_memSize_lt haddr hout] at h
  cases h

theorem fitsAt_of_fetch {s : State} {i : Instr} (h : fetch s = .ok i) : i.fitsAt s.pc.toNat = true := by
  obtain ⟨op, hop, h⟩ := bind_eq_ok_iff.mp h
  split at h
  · cases h
  · obtain ⟨operands, hoperands, h⟩ := bind_eq_ok_iff.mp h
    split at h
    · next j rest hdec =>
      cases h
      obtain ⟨rfl, -⟩ := List.cons.inj (encode_append_of_decode hdec)
      have hin := add_le_memSize_of_readBytes (lt_memSize_of_memRead hop) hoperands
      rw [operandCount_opcode] at hin
      exact decide_eq_true (by rw [Instr.length]; omega)
    · cases h

/-! ### The three parts of the invariant, through one instruction -/

theorem lt_memSize_of_mem_writtenCells {i : Instr} {s : State} {addr : Nat} (h : addr ∈ writtenCells i s) :
    addr < Config.memSize := by
  cases i
  case st | push | call => exact List.mem_singleton.mp h ▸ byte_lt_memSize _
  all_goals exact absurd h List.not_mem_nil

theorem ExecEffect.mem_wf {i : Instr} {s t : State} (h : ExecEffect i s t) (hwf : Memory.wf s.mem = true) :
    Memory.wf t.mem = true := by
  obtain hmem | ⟨addr, haddr, b, hmem⟩ := h.mem
  · rwa [hmem]
  · rw [hmem]
    exact Memory.wf_set _ _ _ hwf (lt_memSize_of_mem_writtenCells haddr)

theorem ExecEffect.pc_le {i : Instr} {s t : State} (h : ExecEffect i s t)
    (hfits : i.fitsAt s.pc.toNat = true) : t.pc.toNat ≤ 256 := by
  obtain hadvance | ⟨-, b, hjump⟩ := h.pc
  · rw [hadvance, toNat_add_length_of_fitsAt hfits]
    exact of_decide_eq_true hfits
  · rw [hjump, BitVec.toNat_setWidth_of_le (by decide)]
    exact b.isLt.le

theorem ExecEffect.run_ne_faulted {i : Instr} {s t : State} (h : ExecEffect i s t) (hrun : s.run = .running)
    (f : Fault) : t.run ≠ .faulted f := by
  obtain hkeep | ⟨-, hhalt⟩ := h.run
  · simp [hkeep, hrun]
  · simp [hhalt]

theorem RaisesFault.pcOf_eq {i : Instr} {s : State} {f : Fault} (h : RaisesFault i s f) : f.pcOf = s.pc := by
  obtain ⟨rfl, -⟩ | ⟨rfl, -⟩ := h <;> rfl

/-! ### The invariant through the phases -/

/-- Where RUN is no fault, the invariant is its first two parts. -/
theorem State.inv_of_running {s : State} (hrun : s.run = .running) (hwf : Memory.wf s.mem = true)
    (hpc : s.pc.toNat ≤ 256) : s.Inv :=
  ⟨hwf, hpc, fun f hf => by simp [hrun] at hf⟩

theorem State.Inv.takeFault {s : State} (h : s.Inv) {f : Fault} (hf : f.pcOf = s.pc) :
    (s.takeFault f).Inv := by
  obtain ⟨hwf, hpc, -⟩ := h
  refine ⟨hwf, hpc, fun g hg => ?_⟩
  obtain rfl : f = g := RunState.faulted.inj hg
  exact hf

theorem State.Inv.dispatched {s : State} (h : s.Inv) (hrun : s.run = .running) (i : Line) :
    (s.dispatched i).Inv := by
  obtain ⟨hwf, -, -⟩ := h
  refine State.inv_of_running hrun (frameMem_wf _ _ _ hwf) ?_
  rw [State.dispatched, State.jumpTo_pc_toNat]
  exact (BitVec.isLt _).le

theorem State.Inv.exec {i : Instr} {s t : State} (hinv : s.Inv) (hrun : s.run = .running)
    (hfits : i.fitsAt s.pc.toNat = true) (h : exec i s = .next t) : t.Inv := by
  obtain ⟨f, hf, rfl⟩ | heffect := exec_cases h
  · exact hinv.takeFault hf.pcOf_eq
  · obtain ⟨hwf, -, -⟩ := hinv
    exact ⟨heffect.mem_wf hwf, heffect.pc_le hfits, fun f hf => absurd hf (heffect.run_ne_faulted hrun f)⟩

theorem State.Inv.instructionPhase {u t : State} (hinv : u.Inv) (hrun : u.run = .running)
    (h : instructionPhase u = .next t) : t.Inv := by
  obtain ⟨i, hi, hexec⟩ | ⟨f, hf, rfl⟩ := instructionPhase_cases h
  · exact hinv.exec hrun (fitsAt_of_fetch hi) hexec
  · exact hinv.takeFault (pcOf_of_fetch_error hf)

/-- Settles O18: the dispatch keeps the invariant, and the instruction phase after it does, since an instruction
that was fetched fits at the pc. -/
theorem stepKeepsInvariant : Obligations.StepKeepsInvariant := by
  intro s t hinv h
  obtain rfl | ⟨hrun, u, rfl | ⟨i, rfl⟩, hphase⟩ := step_cases h
  · exact hinv
  · exact hinv.instructionPhase hrun hphase
  · exact (hinv.dispatched hrun i).instructionPhase hrun hphase

/-! ### The invariant through the host's moves (R251) -/

theorem State.inv_reset : State.reset.Inv :=
  State.inv_of_running rfl State.reset_mem_wf (Nat.zero_le 256)

theorem State.inv_resetWith (image : List Byte) : (State.resetWith image).Inv :=
  State.inv_of_running rfl (Memory.wf_storeBytes image [] 0 rfl) (Nat.zero_le 256)

/-- Settles O17. -/
theorem invariantAtReset : Obligations.InvariantAtReset := ⟨State.inv_reset, State.inv_resetWith⟩

theorem State.Inv.raiseLine {s : State} (h : s.Inv) (i : Line) : (s.raiseLine i).Inv := by
  by_cases hrun : s.run = .running
  · rw [State.raiseLine_of_running hrun]
    exact h
  · rwa [State.raiseLine_of_not_running hrun]

/-- Settles O19, by induction over the host's moves. -/
theorem reachableStatesKeepInvariant : Obligations.ReachableStatesKeepInvariant := by
  intro s hs
  induction hs with
  | start => exact State.inv_reset
  | move s t m _ hmove ih =>
    cases m with
    | reset image => exact Host.Outcome.next.inj hmove ▸ State.inv_resetWith image
    | trigger => exact stepKeepsInvariant s t ih hmove
    | raiseLine i => exact Host.Outcome.next.inj hmove ▸ ih.raiseLine i

end Sys2Proof.Machine
end
